-- ==== Sys2Proof/Word.lean ====
section
/-! DEFINITION. The widths of rule R13: the byte, the 16-bit half word and the 32-bit word. -/

namespace Sys2Proof

/-- A buffer byte or a command register (R13). -/
abbrev Byte := BitVec 8

/-- A 16-bit input register: gyro, accel, touch coordinates (R13). -/
abbrev Half := BitVec 16

/-- A command word, and the 32-bit registers (R13, R70). -/
abbrev Word := BitVec 32

end Sys2Proof
end

