-- ==== Sys2Proof/Config.lean ====
section
/-! DEFINITION. What is fixed for the life of one block (R7, R9, R39): the names that the configuration record speaks of,
its shape (its values stand in Machine/Params.lean), and the free values of R37 and R38, which have no body. -/

namespace Sys2Proof

/-- The number of command registers (R21). -/
abbrev Config.numRegs : Nat := 36

/-- BUF_LEN: 7 bits (R13, R28). That it is at most BUF_SIZE is an invariant, not part of the type. -/
abbrev BufLen := BitVec 7

/-- The error kinds of R220 other than None. The numbers are the parameter `errCode` (R9). -/
inductive ErrKind where
  /-- Never raised by the block: the host's `open` (R220, R244). -/
  | openFailed
  /-- Never raised by the block: the host's `read_timeout` (R220, R244). -/
  | ioTimeout
  /-- Never raised by the block: the host's `read_timeout` and `write` (R220, R244). -/
  | ioError
  /-- R221: the operation needs buffer bytes at or beyond BUF_LEN. -/
  | truncatedBuffer
  /-- R221: TR is 2 or 3. -/
  | unsupportedTransport
  /-- Reserved, never raised (R162, R220). -/
  | checksumMismatch
  /-- R221: the command word is illegal. -/
  | illegalCommand
  /-- R221: the operation reads a guarded register whose flag is 0. -/
  | notReady
deriving DecidableEq, Repr

/-- The names of the nineteen operations (R76). The numbers are the parameter `opcode` (R9). -/
inductive Op where
  | newcyc | clrcmd | settr | setlen | wrb | wrc
  | crcseed | crcbyte | crcfeed | crcfin | crcput | crcsign
  | ext | inj | bset | zfill
  | decode | batpct | encode
deriving DecidableEq, Repr

/-- The eight field groups (R21, R22). -/
inductive Group where
  | motor | audio | power | trigR | trigL | bright | player | lightbar
deriving DecidableEq, Repr

/-- IN_OFF (R98): offsets within the input structure. `gyro` and `accel` are those of element 0 and `touch` that of
touch point 0; the elements follow 2, 2 and 4 bytes apart (R98, R191). -/
structure InOffsets where
  x : Nat
  y : Nat
  rx : Nat
  ry : Nat
  z : Nat
  rz : Nat
  seq : Nat
  buttons : Nat
  gyro : Nat
  accel : Nat
  ts : Nat
  touch : Nat
  status : Nat
deriving DecidableEq, Repr

/-- The configuration record of R7 and R9. The operations take it as an argument, so that a claim can name the value of
a parameter, or hold for another reading of one (C1, C2, C3, G10). With wrong values every operation still completes
(R258); what it then writes or reads where entries collide or lie outside the buffer is a DESIGN CHOICE (log 13). -/
structure Params where
  /-- IN_LEN_USB, IN_LEN_BT -/
  inLenUsb : Nat
  inLenBt : Nat
  /-- IN_BASE_USB, IN_BASE_BT -/
  inBaseUsb : Nat
  inBaseBt : Nat
  /-- RID_IN_USB, RID_IN_BT: named by the document; no operation compares a report id (R193). -/
  ridInUsb : Byte
  ridInBt : Byte
  /-- RID_OUT_USB, RID_OUT_BT -/
  ridOutUsb : Byte
  ridOutBt : Byte
  /-- OUT_SEQ_OFF_BT, OUT_TAG_OFF_BT -/
  outSeqOffBt : Nat
  outTagOffBt : Nat
  /-- CRC_LEN -/
  crcLen : Nat
  /-- SEED_OUT, SEED_IN, SEED_FEAT -/
  seedOut : Byte
  seedIn : Byte
  seedFeat : Byte
  /-- CRC_SEED_BYTES -/
  crcSeedBytes : Nat
  /-- CRC_COVERS_TRAILER -/
  crcCoversTrailer : Bool
  /-- BATT_MAX: a property of the controller's data, which no operation enforces (R102, R195, R200). -/
  battMax : Nat
  /-- BUF_SIZE (R9, D26) -/
  bufSize : Nat
  /-- TRIG_PARAMS, TOUCH_POINTS -/
  trigParams : Nat
  touchPoints : Nat
  /-- OUT_LEN_USB, OUT_LEN_BT -/
  outLenUsb : BufLen
  outLenBt : BufLen
  /-- OUT_BASE_USB, OUT_BASE_BT -/
  outBaseUsb : Nat
  outBaseBt : Nat
  /-- COMMON_LEN, IN_STRUCT_LEN -/
  commonLen : Nat
  inStructLen : Nat
  /-- IN_OFF -/
  inOff : InOffsets
  /-- OUT_OFF: entry r is off(r), for the registers C[0] to C[33] (R106) -/
  outOff : Vector Nat 34
  /-- VOFF: the offsets of valid_flag0, valid_flag1, valid_flag2 (R106) -/
  voff : Fin 3 → Nat
  /-- VALID_MAP's two columns (R108) -/
  vbyte : Group → Fin 3
  vmask : Group → Byte
  /-- CRC_POLY_REFL, CRC_INIT, CRC_FINAL_XOR -/
  crcPolyRefl : Word
  crcInit : Word
  crcFinalXor : Word
  /-- TR_USB, TR_BT -/
  trUsb : BitVec 2
  trBt : BitVec 2
  /-- The error codes (R9, R220, D5) -/
  errCode : ErrKind → BitVec 4
  /-- The operation codes (R9, R76, D2) -/
  opcode : Op → Byte

/-- FREE VALUE (R38, U14; DESIGN CHOICE, log 1). The byte a buffer offset holds after a reset until something writes it:
any value, fixed at that reset. The arguments are the block's `source`, the number of resets, and the offset. It has no
body. Whether two blocks' contents agree the spec leaves open: here blocks of different `source` are unrelated, and two
blocks, or two runs, of equal `source` and reset count hold provably the same bytes, which is unsafe (log 10). -/
opaque Config.resetByte : Nat → Nat → Nat → Byte

/-- FREE VALUE (R37, U15; DESIGN CHOICE, log 3). What the host observes of a guarded register whose flag is 0: a fresh draw
on every observation. The arguments are the block's `source` and the number of observations before this one. It has no
body. Whether two blocks' draws agree the spec leaves open: here blocks of different `source` are unrelated, and the n-th
observations of two blocks, or two runs, of equal `source` are provably the same draw, which is unsafe (log 10). -/
opaque Config.freeRead : Nat → Nat → Word

end Sys2Proof
end

