-- ==== Sys2Proof/Machine/Params.lean ====
section
/-! DEFINITION. The values of the configuration record (R7, R9), the consistency conditions of R10, and the table of
layout variants of R190. -/

namespace Sys2Proof.Machine

/-- OUT_OFF (R106): off(r) for r = 0 to 33. -/
def outOffsets : Vector Nat 34 :=
  #v[2, 3] ++ #v[4, 5, 6, 7] ++ #v[9] ++ #v[10] ++ #v[11, 12, 13, 14, 15, 16, 17, 18, 19, 20] ++
  #v[21] ++ #v[22, 23, 24, 25, 26, 27, 28, 29, 30, 31] ++ #v[42] ++ #v[43] ++ #v[44, 45, 46]

/-- VOFF (R106). -/
def validOffset (j : Fin 3) : Nat :=
  match j with
  | 0 => 0
  | 1 => 1
  | 2 => 38

/-- vbyte(g) (R108). -/
def validByte (g : Group) : Fin 3 :=
  match g with
  | .motor | .trigR | .trigL => 0
  | .power | .audio => 1
  | .bright | .lightbar | .player => 2

/-- vmask(g) (R108). -/
def validMask (g : Group) : Byte :=
  match g with
  | .motor => 0x03
  | .trigR => 0x04
  | .trigL => 0x08
  | .power => 0x02
  | .audio => 0x80
  | .bright => 0x01
  | .lightbar => 0x02
  | .player => 0x04

/-- The codes of R220. -/
def errorCode (k : ErrKind) : BitVec 4 :=
  match k with
  | .openFailed => 1
  | .ioTimeout => 2
  | .ioError => 3
  | .truncatedBuffer => 4
  | .unsupportedTransport => 5
  | .checksumMismatch => 6
  | .illegalCommand => 7
  | .notReady => 8

/-- The op column of R76. -/
def operationCode (o : Op) : Byte :=
  match o with
  | .newcyc => 0x01
  | .clrcmd => 0x02
  | .settr => 0x03
  | .setlen => 0x04
  | .wrb => 0x05
  | .wrc => 0x06
  | .crcseed => 0x10
  | .crcbyte => 0x11
  | .crcfeed => 0x12
  | .crcfin => 0x13
  | .crcput => 0x14
  | .crcsign => 0x15
  | .ext => 0x20
  | .inj => 0x21
  | .bset => 0x22
  | .zfill => 0x23
  | .decode => 0x30
  | .batpct => 0x31
  | .encode => 0x32

/-- The spec's values (R7, R9, R98, R106, R108). Those of R9 are the spec's own choice or general knowledge, and no fact
about a physical controller: DESIGN CHOICE (log 5), unsafe for claims about one. -/
def params : Params where
  inLenUsb := 64
  inLenBt := 78
  inBaseUsb := 1
  inBaseBt := 1
  ridInUsb := 0x01
  ridInBt := 0x31
  ridOutUsb := 0x02
  ridOutBt := 0x31
  outSeqOffBt := 1
  outTagOffBt := 2
  crcLen := 4
  seedOut := 0xA2
  seedIn := 0xA1
  seedFeat := 0xA3
  crcSeedBytes := 4
  crcCoversTrailer := true
  battMax := 8
  bufSize := 78
  trigParams := 10
  touchPoints := 2
  outLenUsb := 63
  outLenBt := 78
  outBaseUsb := 1
  outBaseBt := 3
  commonLen := 47
  inStructLen := 63
  inOff :=
    { x := 0, y := 1, rx := 2, ry := 3, z := 4, rz := 5, seq := 6, buttons := 7
      gyro := 15, accel := 21, ts := 27, touch := 32, status := 52 }
  outOff := outOffsets
  voff := validOffset
  vbyte := validByte
  vmask := validMask
  crcPolyRefl := 0xEDB88320
  crcInit := 0xFFFFFFFF
  crcFinalXor := 0xFFFFFFFF
  trUsb := 0
  trBt := 1
  errCode := errorCode
  opcode := operationCode

/-- R10: the conditions any choice of parameters meets. -/
def consistent (P : Params) : Bool :=
  decide (P.inBaseUsb + P.inStructLen ≤ P.inLenUsb) && decide (P.inBaseBt + P.inStructLen ≤ P.inLenBt) &&
  decide (P.outBaseUsb + P.commonLen ≤ P.outLenUsb.toNat) &&
  decide (P.outBaseBt + P.commonLen ≤ P.outLenBt.toNat - P.crcLen) &&
  decide (P.inLenUsb ≤ P.bufSize) && decide (P.inLenBt ≤ P.bufSize) &&
  decide (P.outLenUsb.toNat ≤ P.bufSize) && decide (P.outLenBt.toNat ≤ P.bufSize) &&
  decide (P.crcLen = 4) && decide (P.crcLen ≤ P.outLenBt.toNat)

/-- Every operation, in the order of R76. -/
def allOps : List Op :=
  [.newcyc, .clrcmd, .settr, .setlen, .wrb, .wrc] ++ [.crcseed, .crcbyte, .crcfeed, .crcfin, .crcput, .crcsign] ++
  [.ext, .inj, .bset, .zfill] ++ [.decode, .batpct, .encode]

/-- Every error kind, in the order of R220. -/
def allErrKinds : List ErrKind :=
  [.openFailed, .ioTimeout, .ioError, .truncatedBuffer, .unsupportedTransport, .checksumMismatch] ++
  [.illegalCommand, .notReady]

/-- What the other rules need of the parameters that R10 does not name: BUF_LEN's 7 bits hold BUF_SIZE (R13, R28), no two
operations have one code (R76), no two kinds have one code, and none that of None (R220), and the two transports differ. -/
def codable (P : Params) : Bool :=
  decide (P.bufSize < 2 ^ 7) && decide ((allOps.map P.opcode).Nodup) && decide ((allErrKinds.map P.errCode).Nodup) &&
  allErrKinds.all (fun k => decide (P.errCode k ≠ 0)) && decide (P.trUsb ≠ P.trBt)

/-- One row of the table of R190. `bt` stands for its last two columns: the framing bytes and the checksum. -/
structure Layout where
  inLen : Nat
  inBase : Nat
  outLen : BufLen
  reportId : Byte
  outBase : Nat
  bt : Bool
deriving DecidableEq, Repr

/-- R190: the transport-dependent quantities; none for a transport with no defined layout. A record whose two
transports have one code has the USB row (log 13). -/
def layoutOf (P : Params) (tr : BitVec 2) : Option Layout :=
  if tr = P.trUsb then some ⟨P.inLenUsb, P.inBaseUsb, P.outLenUsb, P.ridOutUsb, P.outBaseUsb, false⟩
  else if tr = P.trBt then some ⟨P.inLenBt, P.inBaseBt, P.outLenBt, P.ridOutBt, P.outBaseBt, true⟩
  else none

end Sys2Proof.Machine
end

