-- ==== Sys2Proof/Syntax.lean ====
section
/-! DEFINITION. The operations of the opcode map (R76), one constructor a row, with the operand fields of R75. -/

namespace Sys2Proof

/-- One operation with its operand fields as they stand in the command word (R75, R76). -/
inductive Instr where
  /-- NEWCYC (R121) -/
  | newcyc
  /-- CLRCMD (R122) -/
  | clrcmd
  /-- SETTR t (R123) -/
  | settr (t : BitVec 2)
  /-- SETLEN n (R124) -/
  | setlen (n : Byte)
  /-- WRB a, imm (R125) -/
  | wrb (a imm : Byte)
  /-- WRC r, imm (R126) -/
  | wrc (r imm : Byte)
  /-- CRCSEED k (R142) -/
  | crcseed (k : BitVec 2)
  /-- CRCBYTE imm (R146) -/
  | crcbyte (imm : Byte)
  /-- CRCFEED a, n (R148) -/
  | crcfeed (a n : Byte)
  /-- CRCFIN (R150) -/
  | crcfin
  /-- CRCPUT (R152) -/
  | crcput
  /-- CRCSIGN k (R158) -/
  | crcsign (k : BitVec 2)
  /-- EXT boff, len (R171) -/
  | ext (boff : BitVec 10) (len : BitVec 6)
  /-- INJ boff, len, imm (R172) -/
  | inj (boff : BitVec 10) (len : BitVec 6) (imm : Byte)
  /-- BSET a, mask (R173) -/
  | bset (a mask : Byte)
  /-- ZFILL n (R174) -/
  | zfill (n : Byte)
  /-- DECODE (R191) -/
  | decode
  /-- BATPCT (R200) -/
  | batpct
  /-- ENCODE (R205) -/
  | encode
deriving DecidableEq, Repr

end Sys2Proof
end

