-- ==== Sys2Proof/Machine/Ranges.lean ====
section
/-! DEFINITION. The operand ranges of R79, under a configuration record: an operation outside them is an illegal command
word. -/

namespace Sys2Proof.Machine

/-- R79: every operand is inside the range the operation accepts. SETTR takes all four values of t; BSET, CRCFEED and the
bit offsets of EXT and INJ have no limit here, because their reach is checked against BUF_LEN when they execute. -/
def inRange (P : Params) : Instr → Bool
  | .setlen n => decide (n.toNat ≤ P.bufSize)
  | .zfill n => decide (n.toNat ≤ P.bufSize)
  | .wrb a _ => decide (a.toNat < P.bufSize)
  | .wrc r _ => decide (r.toNat < Config.numRegs)
  | .crcseed k => decide (k ≠ 3)
  | .crcsign k => decide (k ≠ 3)
  | .ext _ len => decide (1 ≤ len.toNat ∧ len.toNat ≤ 32)
  | .inj _ len imm => decide (1 ≤ len.toNat ∧ len.toNat ≤ 8 ∧ imm.toNat < 2 ^ len.toNat)
  | .newcyc | .clrcmd | .settr _ | .crcbyte _ | .crcfeed _ _ | .crcfin | .crcput => true
  | .bset _ _ | .decode | .batpct | .encode => true

end Sys2Proof.Machine
end

