-- ==== Sys2Proof/WellFormed.lean ====
section
/-! DEFINITION. Well-formed operations: those whose operands are in the ranges of R79 with the spec's parameters. -/

namespace Sys2Proof

/-- R79 with the spec's parameters. -/
def Instr.wellFormed (i : Instr) : Bool := Machine.inRange Machine.params i

end Sys2Proof
end

