-- ==== Sys2Proof/Decode.lean ====
section
/-! DEFINITION. The decoder of command words (R70 to R79, R85), the encoder, and the opcode map of R76 as data. -/

namespace Sys2Proof

/-- Why a word is illegal. The block reports all three as IllegalCommand (R77, R78, R79). -/
inductive Reject where
  /-- R77: the operation code is reserved. -/
  | reservedOpcode
  /-- R78: a must-be-zero bit is 1. -/
  | mustBeZero
  /-- R79: an operand is outside its range. -/
  | operandRange
deriving DecidableEq, Repr

/-! ### The fields of a word (R70 to R75) -/

/-- w[31:24] -/
def opField (w : Word) : Byte := w.extractLsb' 24 8

/-- w[15:8] -/
def aField (w : Word) : Byte := w.extractLsb' 8 8

/-- w[7:0] -/
def immField (w : Word) : Byte := w.extractLsb' 0 8

/-- w[1:0] -/
def kField (w : Word) : BitVec 2 := w.extractLsb' 0 2

/-- w[23:14] -/
def boffField (w : Word) : BitVec 10 := w.extractLsb' 14 10

/-- w[13:8] -/
def lenField (w : Word) : BitVec 6 := w.extractLsb' 8 6

/-- F0's zero field w[23:0] (R71). -/
def zeroF0 (w : Word) : Bool := w.extractLsb' 0 24 == 0

/-- FK's zero field w[23:2] (R72). -/
def zeroFK (w : Word) : Bool := w.extractLsb' 2 22 == 0

/-- FA's zero field w[23:16] (R73). -/
def zeroFA (w : Word) : Bool := w.extractLsb' 16 8 == 0

/-- FA with a required to be 0 (R73): w[23:8]. -/
def zeroFA1 (w : Word) : Bool := w.extractLsb' 8 16 == 0

/-- FB with imm required to be 0 (R74): w[7:0]. -/
def zeroFB (w : Word) : Bool := w.extractLsb' 0 8 == 0

/-- R78 and then R79, for a word whose operation code is assigned. -/
def accept (P : Params) (zeros : Bool) (i : Instr) : Except Reject Instr :=
  if zeros then (if Machine.inRange P i then .ok i else .error .operandRange) else .error .mustBeZero

/-- The operation that has a code, if one has (R76); under a record that gives a code twice, the first (log 13). -/
def opOf (P : Params) (code : Byte) : Option Op := Machine.allOps.find? fun o => P.opcode o == code

/-- The operands of a word that requests the operation (R71 to R75). -/
def readOperands (P : Params) (o : Op) (w : Word) : Except Reject Instr :=
  match o with
  | .newcyc => accept P (zeroF0 w) .newcyc
  | .clrcmd => accept P (zeroF0 w) .clrcmd
  | .settr => accept P (zeroFK w) (.settr (kField w))
  | .setlen => accept P (zeroFA1 w) (.setlen (immField w))
  | .wrb => accept P (zeroFA w) (.wrb (aField w) (immField w))
  | .wrc => accept P (zeroFA w) (.wrc (aField w) (immField w))
  | .crcseed => accept P (zeroFK w) (.crcseed (kField w))
  | .crcbyte => accept P (zeroFA1 w) (.crcbyte (immField w))
  | .crcfeed => accept P (zeroFA w) (.crcfeed (aField w) (immField w))
  | .crcfin => accept P (zeroF0 w) .crcfin
  | .crcput => accept P (zeroF0 w) .crcput
  | .crcsign => accept P (zeroFK w) (.crcsign (kField w))
  | .ext => accept P (zeroFB w) (.ext (boffField w) (lenField w))
  | .inj => accept P true (.inj (boffField w) (lenField w) (immField w))
  | .bset => accept P (zeroFA w) (.bset (aField w) (immField w))
  | .zfill => accept P (zeroFA1 w) (.zfill (immField w))
  | .decode => accept P (zeroF0 w) .decode
  | .batpct => accept P (zeroF0 w) .batpct
  | .encode => accept P (zeroF0 w) .encode

/-- R85 under a configuration record: the decoder, total on the 2^32 words. It reads no state. -/
def decodeWith (P : Params) (w : Word) : Except Reject Instr :=
  match opOf P (opField w) with
  | some o => readOperands P o w
  | none => .error .reservedOpcode

/-- R85: the decoder, with the spec's operation codes. -/
def decode (w : Word) : Except Reject Instr := decodeWith Machine.params w

/-! ### The encoder, one definition a format -/

/-- F0 (R71) -/
def encF0 (op : Byte) : Word := op ++ (0 : BitVec 24)

/-- FK (R72) -/
def encFK (op : Byte) (k : BitVec 2) : Word := op ++ ((0 : BitVec 22) ++ k)

/-- FA (R73) -/
def encFA (op a imm : Byte) : Word := op ++ ((0 : BitVec 8) ++ (a ++ imm))

/-- FB (R74) -/
def encFB (op : Byte) (boff : BitVec 10) (len : BitVec 6) (imm : Byte) : Word := op ++ (boff ++ (len ++ imm))

/-- The command word that requests an operation, under a configuration record (R76). -/
def encodeWith (P : Params) : Instr → Word
  | .newcyc => encF0 (P.opcode .newcyc)
  | .clrcmd => encF0 (P.opcode .clrcmd)
  | .settr t => encFK (P.opcode .settr) t
  | .setlen n => encFA (P.opcode .setlen) 0 n
  | .wrb a imm => encFA (P.opcode .wrb) a imm
  | .wrc r imm => encFA (P.opcode .wrc) r imm
  | .crcseed k => encFK (P.opcode .crcseed) k
  | .crcbyte imm => encFA (P.opcode .crcbyte) 0 imm
  | .crcfeed a n => encFA (P.opcode .crcfeed) a n
  | .crcfin => encF0 (P.opcode .crcfin)
  | .crcput => encF0 (P.opcode .crcput)
  | .crcsign k => encFK (P.opcode .crcsign) k
  | .ext boff len => encFB (P.opcode .ext) boff len 0
  | .inj boff len imm => encFB (P.opcode .inj) boff len imm
  | .bset a mask => encFA (P.opcode .bset) a mask
  | .zfill n => encFA (P.opcode .zfill) 0 n
  | .decode => encF0 (P.opcode .decode)
  | .batpct => encF0 (P.opcode .batpct)
  | .encode => encF0 (P.opcode .encode)

/-- The command word that requests an operation (R76). -/
def encode (i : Instr) : Word := encodeWith Machine.params i

/-! ### The opcode map as the spec tabulates it -/

/-- The mnemonic of R76. -/
def mnemonic : Instr → String
  | .newcyc => "NEWCYC"
  | .clrcmd => "CLRCMD"
  | .settr _ => "SETTR"
  | .setlen _ => "SETLEN"
  | .wrb _ _ => "WRB"
  | .wrc _ _ => "WRC"
  | .crcseed _ => "CRCSEED"
  | .crcbyte _ => "CRCBYTE"
  | .crcfeed _ _ => "CRCFEED"
  | .crcfin => "CRCFIN"
  | .crcput => "CRCPUT"
  | .crcsign _ => "CRCSIGN"
  | .ext _ _ => "EXT"
  | .inj _ _ _ => "INJ"
  | .bset _ _ => "BSET"
  | .zfill _ => "ZFILL"
  | .decode => "DECODE"
  | .batpct => "BATPCT"
  | .encode => "ENCODE"

/-- One row of R76: a word w selects it when `w and mask = match`; `operands` reads the row's operands (R75). -/
structure OpcodeRow where
  name : String
  pattern : Word
  mask : Word
  operands : Word → Instr

/-- `w and mask = match` (R76). -/
def selects (r : OpcodeRow) (w : Word) : Bool := w &&& r.mask == r.pattern

/-- The nineteen rows of R76, with the table's own match and mask columns. The decoder above is written from the formats
of R71 to R74 instead, so that each checks the other. -/
def opcodeMap : List OpcodeRow :=
  [⟨"NEWCYC", 0x01000000, 0xFFFFFFFF, fun _ => .newcyc⟩,
   ⟨"CLRCMD", 0x02000000, 0xFFFFFFFF, fun _ => .clrcmd⟩,
   ⟨"SETTR", 0x03000000, 0xFFFFFFFC, fun w => .settr (kField w)⟩,
   ⟨"SETLEN", 0x04000000, 0xFFFFFF00, fun w => .setlen (immField w)⟩,
   ⟨"WRB", 0x05000000, 0xFFFF0000, fun w => .wrb (aField w) (immField w)⟩,
   ⟨"WRC", 0x06000000, 0xFFFF0000, fun w => .wrc (aField w) (immField w)⟩,
   ⟨"CRCSEED", 0x10000000, 0xFFFFFFFC, fun w => .crcseed (kField w)⟩,
   ⟨"CRCBYTE", 0x11000000, 0xFFFFFF00, fun w => .crcbyte (immField w)⟩,
   ⟨"CRCFEED", 0x12000000, 0xFFFF0000, fun w => .crcfeed (aField w) (immField w)⟩,
   ⟨"CRCFIN", 0x13000000, 0xFFFFFFFF, fun _ => .crcfin⟩,
   ⟨"CRCPUT", 0x14000000, 0xFFFFFFFF, fun _ => .crcput⟩,
   ⟨"CRCSIGN", 0x15000000, 0xFFFFFFFC, fun w => .crcsign (kField w)⟩,
   ⟨"EXT", 0x20000000, 0xFF0000FF, fun w => .ext (boffField w) (lenField w)⟩,
   ⟨"INJ", 0x21000000, 0xFF000000, fun w => .inj (boffField w) (lenField w) (immField w)⟩,
   ⟨"BSET", 0x22000000, 0xFFFF0000, fun w => .bset (aField w) (immField w)⟩,
   ⟨"ZFILL", 0x23000000, 0xFFFFFF00, fun w => .zfill (immField w)⟩,
   ⟨"DECODE", 0x30000000, 0xFFFFFFFF, fun _ => .decode⟩,
   ⟨"BATPCT", 0x31000000, 0xFFFFFFFF, fun _ => .batpct⟩,
   ⟨"ENCODE", 0x32000000, 0xFFFFFFFF, fun _ => .encode⟩]

/-- The instruction the decoder reads from a word numbered as spec/opcode_table.json numbers its bits. A command word is
one 32-bit value that the host hands to the command port (R70), so no byte order enters; bits above `nbits` are 0. -/
def decodeTableWord (nbits w : Nat) : Option Instr :=
  if w % 2 ^ nbits < 2 ^ 32 then (decode (BitVec.ofNat 32 (w % 2 ^ nbits))).toOption else none

end Sys2Proof
end

