-- ==== Sys2Proof/Machine/State.lean ====
section
/-! DEFINITION. The state of the block (R20 to R38), the host's side of the command port (R24, R39, R69, R127, R250), the
reasons a step can stop, and the state after reset. Plain data. -/

namespace Sys2Proof.Machine

/-! ### Stops -/

/-- The reasons for which the MACHINE stops with a fault. There are none: every fault of the spec is a NEXT state, in
which ERR and ERR_INFO are written (R225) and after which the block goes on taking command words (R227, R228). -/
inductive Fault : Type
deriving DecidableEq, Repr

/-- The reasons for which the model gives no meaning. -/
inductive Refusal where
  /-- An arm of `exec` for an instruction that has no meaning yet. No arm answers with it: all nineteen are modelled. Safe. -/
  | notModelled (mnemonic : String)
deriving DecidableEq, Repr

/-! ### The report buffer -/

/-- Bytes at offsets, in one canonical form: offsets strictly rising (R35). An unlisted offset reads as NO byte written
since reset; a listed one always holds a written byte, so no entry equals what an unlisted offset reads as. -/
abbrev Memory := List Host.Cell

/-- The offsets are strictly rising, the first at least `lo`. -/
def Memory.rising : Nat → Memory → Bool
  | _, [] => true
  | lo, (k, _) :: m => decide (lo ≤ k) && Memory.rising (k + 1) m

/-- The canonical form. -/
def Memory.wf (m : Memory) : Bool := Memory.rising 0 m

/-- BUF (R35): the bytes written since the last reset, and what names the unspecified contents that the other bytes took
at that reset (R38): how many resets there were, and the block's own source of unspecified values, a number that nothing
changes and that two blocks need not share (DESIGN CHOICE, logs 1 and 10). -/
structure Buffer where
  cells : Memory
  epoch : Nat
  source : Nat
deriving DecidableEq, Repr

/-! ### The input-state register file -/

/-- One touch point: IN.TPn_ID, IN.TPn_X, IN.TPn_Y (R33). -/
structure TouchPoint where
  id : Byte
  x : Half
  y : Half
deriving DecidableEq, Repr

/-- The IN file (R33). -/
structure InRegs where
  x : Byte
  y : Byte
  rx : Byte
  ry : Byte
  z : Byte
  rz : Byte
  seq : Byte
  buttons : Word
  gyro : Vector Half 3
  accel : Vector Half 3
  ts : Word
  tp : Vector TouchPoint 2
  status : Byte
deriving DecidableEq, Repr

/-! ### The host's side of the command port -/

/-- What the observation port can be asked for, by name (R32, R127). -/
inductive ObsName where
  | c (r : Fin 36)
  | grpEn | tr | bufLen | status | err | errInfo | crcAcc | crcRes | xdata | pct
  | inX | inY | inRx | inRy | inZ | inRz | inSeq | inButtons
  | inGyro (i : Fin 3)
  | inAccel (i : Fin 3)
  | inTs
  | inTpId (n : Fin 2)
  | inTpX (n : Fin 2)
  | inTpY (n : Fin 2)
  | inStatus
  | buf (a : BitVec 7)
deriving DecidableEq, Repr

/-- What the host can do between operations (R69): issue a command word (R24, R120), observe (R127), reset (R250). -/
inductive HostEvent where
  | command (w : Word)
  | observe (r : ObsName)
  | reset
deriving DecidableEq, Repr

/-- The host's side, no state of the block (R39; DESIGN CHOICE, logs 3 and 4; safe): what it still does, in order; how
many observations it has made, which keeps their free values apart (R37); and what the last one handed it. -/
structure HostSide where
  script : List HostEvent
  reads : Nat
  saw : Word
deriving DecidableEq, Repr

/-! ### The state -/

/-- Every piece of state of rules R21 to R35, and the host's side. -/
structure State where
  /-- C[0] to C[35] (R21) -/
  c : Vector Byte 36
  /-- GRP_EN (R22) -/
  grpEn : Byte
  /-- TR (R27) -/
  tr : BitVec 2
  /-- BUF_LEN (R28) -/
  bufLen : BufLen
  /-- BUF (R35) -/
  buf : Buffer
  /-- ERR (R29) -/
  err : BitVec 4
  /-- ERR_INFO (R29) -/
  errInfo : Word
  /-- CRC_ACC (R30) -/
  crcAcc : Word
  /-- CRC_RES (R30) -/
  crcRes : Word
  /-- XDATA (R31) -/
  xdata : Word
  /-- PCT (R31) -/
  pct : Byte
  /-- The IN file (R33) -/
  inp : InRegs
  /-- STATUS bits 0 to 6 (R25); bit 7, TXRDY, is not stored (R26) -/
  inValid : Bool
  pctValid : Bool
  xValid : Bool
  crcSeeded : Bool
  resValid : Bool
  formed : Bool
  crcFresh : Bool
  /-- Not the block's: the host's side of the command port (R39) -/
  host : HostSide
deriving DecidableEq, Repr

/-- The three outcomes of a step of this machine. -/
abbrev Result := Host.Outcome State Fault Refusal

/-- The IN file before any DECODE. DESIGN CHOICE (log 2): R38 leaves it unspecified; unsafe. While IN_VALID is 0 no
operation and no observation reads it (R37). -/
def InRegs.zero : InRegs :=
  { x := 0, y := 0, rx := 0, ry := 0, z := 0, rz := 0, seq := 0, buttons := 0
    gyro := Vector.replicate 3 0, accel := Vector.replicate 3 0, ts := 0
    tp := Vector.replicate 2 ⟨0, 0, 0⟩, status := 0 }

/-- R38, R250, R251: the state after reset. CRC_ACC, CRC_RES, XDATA, PCT and the IN file are unspecified there; that they
start as zero is a DESIGN CHOICE (log 2), unsafe. The host has issued nothing yet (log 4). -/
def State.reset : State :=
  { c := Vector.replicate 36 0, grpEn := 0, tr := 3, bufLen := 0, buf := ⟨[], 0, 0⟩
    err := 0, errInfo := 0
    crcAcc := 0, crcRes := 0, xdata := 0, pct := 0, inp := InRegs.zero
    inValid := false, pctValid := false, xValid := false, crcSeeded := false, resValid := false
    formed := false, crcFresh := false
    host := ⟨[], 0, 0⟩ }

end Sys2Proof.Machine
end

