-- ==== Sys2Proof/Machine/Ops.lean ====
section
/-! DEFINITION. The named operations over the report buffer (R50 to R61), fault entry and the return from it (R225, R228),
and the one shape that every operation has (R120, R224, R226). -/

namespace Sys2Proof.Machine

/-! ### Bytes -/

/-- The byte written at an address since the last reset, if any. -/
def cellsGet : Memory → Nat → Option Byte
  | [], _ => none
  | (k, v) :: m, a => if a = k then some v else cellsGet m a

/-- Writes one byte and keeps the canonical form. -/
def cellsPut : Memory → Nat → Byte → Memory
  | [], a, v => [(a, v)]
  | (k, u) :: m, a, v =>
    if a < k then (a, v) :: (k, u) :: m
    else if a = k then (a, v) :: m
    else (k, u) :: cellsPut m a v

/-- BUF[a] (R12). A byte that nothing has written since the last reset reads as that reset's unspecified contents, which
do not change until it is written (R38, U14): a free value, log 1. -/
def bufRead (b : Buffer) (a : Nat) : Byte := (cellsGet b.cells a).getD (Config.resetByte b.source b.epoch a)

/-- `BUF[a] <- v`. Every check of R61 comes first, so that a is below BUF_SIZE while BUF_LEN is at most BUF_SIZE and the
record's layout lies inside the buffer. Under a wrong layout (R258) the byte is stored at BUF_SIZE or above all the same:
DESIGN CHOICE (log 13). -/
def bufWrite (b : Buffer) (a : Nat) (v : Byte) : Buffer := { b with cells := cellsPut b.cells a v }

/-- `BUF[a] BUF[a+1] ... BUF[a+n-1]`, in ascending order. -/
def bufBytes (b : Buffer) (a n : Nat) : List Byte := (List.range n).map fun i => bufRead b (a + i)

/-- `BUF[i] <- 0 for i in 0..n-1`. -/
def bufZero (b : Buffer) (n : Nat) : Buffer := (List.range n).foldl (fun b a => bufWrite b a 0) b

/-! ### Little-endian accesses (R52, R53) -/

/-- MemRead(a, 2) -/
def memRead2 (b : Buffer) (a : Nat) : Half := bufRead b (a + 1) ++ bufRead b a

/-- MemRead(a, 4) -/
def memRead4 (b : Buffer) (a : Nat) : Word :=
  bufRead b (a + 3) ++ (bufRead b (a + 2) ++ (bufRead b (a + 1) ++ bufRead b a))

/-- MemWrite(a, 4, v) -/
def memWrite4 (b : Buffer) (a : Nat) (v : Word) : Buffer :=
  bufWrite (bufWrite (bufWrite (bufWrite b a (v.extractLsb' 0 8)) (a + 1) (v.extractLsb' 8 8))
    (a + 2) (v.extractLsb' 16 8)) (a + 3) (v.extractLsb' 24 8)

/-! ### Bit fields (R54 to R56) -/

/-- The buffer's bit i (R54). -/
def bufBit (b : Buffer) (i : Nat) : Bool := (bufRead b (i / 8)).getLsbD (i % 8)

/-- The value of R55, as the sum over its bits: `BitRead(b, n)`. -/
def bitReadNat (b : Buffer) (i : Nat) : Nat → Nat
  | 0 => 0
  | n + 1 => (bufBit b i).toNat + 2 * bitReadNat b (i + 1) n

/-- `zext_32(BitRead(i, n))` for n up to 32 (R55). -/
def bitRead (b : Buffer) (i n : Nat) : Word := BitVec.ofNat 32 (bitReadNat b i n)

/-- One byte with one of its bits replaced. -/
def byteSetBit (v : Byte) (j : Nat) (x : Bool) : Byte :=
  if x then v ||| (1#8 <<< j) else v &&& ~~~(1#8 <<< j)

/-- The buffer with its bit i replaced. -/
def bufSetBit (b : Buffer) (i : Nat) (x : Bool) : Buffer :=
  bufWrite b (i / 8) (byteSetBit (bufRead b (i / 8)) (i % 8) x)

/-- `BitWrite(i, n, v)` (R56): bit i + j becomes v[j] for j below n. -/
def bitWrite (b : Buffer) (i : Nat) (n : Nat) (v : Byte) : Buffer :=
  (List.range n).foldl (fun b j => bufSetBit b (i + j) (v.getLsbD j)) b

/-! ### Fault entry and return -/

/-- `raise Kind(w)`, fault entry (R223, R225): ERR and ERR_INFO, and nothing else. -/
def raise (P : Params) (k : ErrKind) (w : Word) (s : State) : State := { s with err := P.errCode k, errInfo := w }

/-- Return from a fault (R121, R228): the effect of NEWCYC. The guarded registers hold no value afterwards; that their
fields keep their bits is a DESIGN CHOICE (log 11). -/
def newCycle (s : State) : State :=
  { s with
    err := 0, errInfo := 0, bufLen := 0
    inValid := false, pctValid := false, xValid := false
    crcSeeded := false, resValid := false, formed := false, crcFresh := false }

/-! ### The shape of an operation -/

/-- The kind of the first check that fails (R224). -/
def firstFailing : List (Bool × ErrKind) → Option ErrKind
  | [] => none
  | (holds, k) :: rest => if holds then firstFailing rest else some k

/-- R120 for one operation other than NEWCYC: in lockout it is ignored (R227); then the operand ranges and the operation's
own checks, in order, and the first that fails raises with the command word as info; otherwise the effect takes place,
whole (R226). The word is the encoding of the operation, since every operation has exactly one word (R85): DEDUCED
(log 6), safe. -/
def perform (P : Params) (i : Instr) (checks : List (Bool × ErrKind)) (effect : State → State) (s : State) : Result :=
  if s.err ≠ 0 then .next s
  else
    match firstFailing ((inRange P i, .illegalCommand) :: checks) with
    | some k => .next (raise P k (encodeWith P i) s)
    | none => .next (effect s)

end Sys2Proof.Machine
end

