-- ==== Sys2Proof/Machine/Operands.lean ====
section
/-! DEFINITION. The operand forms: the two addressing modes of R170, lengths, the report kind of R142, the register
operand and its group (R21, R126), and the table look-ups of R106 and R108. -/

namespace Sys2Proof.Machine

/-- Byte mode (R170): the offset lies inside the report. -/
def byteInBounds (s : State) (a : Byte) : Bool := decide (a.toNat < s.bufLen.toNat)

/-- Bit-field mode (R170): the field lies inside the report. The sum does not wrap (R128). -/
def fieldInBounds (s : State) (boff : BitVec 10) (len : BitVec 6) : Bool :=
  decide (boff.toNat + len.toNat ≤ 8 * s.bufLen.toNat)

/-- A run of bytes (R148): it lies inside the report. The sum does not wrap (R128). -/
def runInBounds (s : State) (a n : Byte) : Bool := decide (a.toNat + n.toNat ≤ s.bufLen.toNat)

/-- The report is long enough for a trailer (R152, R158). -/
def hasTrailer (s : State) : Bool := decide (4 ≤ s.bufLen.toNat)

/-- TR selects a defined layout (R190). -/
def hasLayout (P : Params) (s : State) : Bool := (layoutOf P s.tr).isSome

/-- BUF_LEN ≥ IN_LEN[TR] (R191). -/
def longEnough (P : Params) (s : State) : Bool :=
  match layoutOf P s.tr with
  | some L => decide (L.inLen ≤ s.bufLen.toNat)
  | none => true

/-- The operand n of SETLEN and ZFILL as a length; R79 has checked n ≤ BUF_SIZE, which 7 bits hold. -/
def lengthOf (n : Byte) : BufLen := n.setWidth 7

/-- SEED[k] (R7, R142): 0 is OUT, 1 is IN, 2 is FEAT; R79 has refused 3. -/
def seedByte (P : Params) (k : BitVec 2) : Byte :=
  match k.toNat with
  | 0 => P.seedOut
  | 1 => P.seedIn
  | _ => P.seedFeat

/-- group(r) (R21, R126); none for SEQ_TAG and TAG. -/
def groupOf (r : Nat) : Option Group :=
  if r ≤ 1 then some .motor
  else if r ≤ 5 then some .audio
  else if r = 6 then some .power
  else if r ≤ 17 then some .trigR
  else if r ≤ 28 then some .trigL
  else if r = 29 then some .bright
  else if r = 30 then some .player
  else if r ≤ 33 then some .lightbar
  else none

/-- The bit of GRP_EN that stands for a group (R22). -/
def groupBit (g : Group) : Nat :=
  match g with
  | .motor => 0
  | .audio => 1
  | .power => 2
  | .trigR => 3
  | .trigL => 4
  | .bright => 5
  | .player => 6
  | .lightbar => 7

/-- The groups in the order of GRP_EN's bits. ENCODE takes them in this order, which the spec leaves open and which shows
only under a record whose offsets collide: DESIGN CHOICE (log 13). -/
def allGroups : List Group := [.motor, .audio, .power, .trigR, .trigL, .bright, .player, .lightbar]

/-- The registers of a group, in rising order (R21). -/
def groupRegs (g : Group) : List Nat := (List.range 36).filter fun r => groupOf r = some g

/-- GRP_EN[g] (R22). -/
def populated (s : State) (g : Group) : Bool := s.grpEn.getLsbD (groupBit g)

/-- GRP_EN with the bit of C[r]'s group set, if it has a group (R126). -/
def populate (grpEn : Byte) (r : Nat) : Byte :=
  match groupOf r with
  | some g => grpEn ||| (1#8 <<< groupBit g)
  | none => grpEn

/-- C[r] (R12, R21), for r below 36. -/
def regC (s : State) (r : Nat) : Byte := s.c[r]?.getD 0

/-- `C[r] <- v` (R12, R21), for r below 36. -/
def setRegC (s : State) (r : Nat) (v : Byte) : Vector Byte 36 := s.c.setIfInBounds r v

/-- off(r) (R106), for r below 34; no group has another register. -/
def outOffset (P : Params) (r : Nat) : Nat := P.outOff[r]?.getD 0

end Sys2Proof.Machine
end

