-- ==== Sys2Proof/Machine/Flags.lean ====
section
/-! DEFINITION. STATUS and its derived bit (R25, R26), and the named accessors over the packed input registers (R34). -/

namespace Sys2Proof.Machine

/-- TXRDY under a configuration record (R26): the buffer holds a fully formed output report that may be transmitted. -/
def txReadyWith (P : Params) (s : State) : Bool :=
  decide (s.err = 0) && s.formed && (decide (s.tr = P.trUsb) || (decide (s.tr = P.trBt) && s.crcFresh))

/-- TXRDY (R26). -/
def txReady (s : State) : Bool := txReadyWith params s

/-- STATUS under a configuration record (R25), bit 0 IN_VALID to bit 7 TXRDY. -/
def statusByteWith (P : Params) (s : State) : Byte :=
  BitVec.ofBool (txReadyWith P s) ++ (BitVec.ofBool s.crcFresh ++ (BitVec.ofBool s.formed ++ (BitVec.ofBool s.resValid ++
    (BitVec.ofBool s.crcSeeded ++ (BitVec.ofBool s.xValid ++ (BitVec.ofBool s.pctValid ++ BitVec.ofBool s.inValid))))))

/-- STATUS (R25). -/
def statusByte (s : State) : Byte := statusByteWith params s

/-- tp_flag(n) = IN.TPn_ID[7] (R34); its polarity is not given (N5). -/
def tpFlag (r : InRegs) (n : Fin 2) : Bool := r.tp[n].id.getLsbD 7

/-- tp_index(n) = IN.TPn_ID[6:0] (R34). -/
def tpIndex (r : InRegs) (n : Fin 2) : BitVec 7 := r.tp[n].id.extractLsb' 0 7

/-- battery_level = IN.STATUS[3:0] (R34, R102). -/
def batteryLevel (r : InRegs) : BitVec 4 := r.status.extractLsb' 0 4

/-- status_flags = IN.STATUS[7:4] (R34, R102); what each bit means is not given (N6). -/
def statusFlags (r : InRegs) : BitVec 4 := r.status.extractLsb' 4 4

/-- button(i) = IN.BUTTONS[i] (R34); what each bit means is not given (N7). -/
def button (r : InRegs) (i : Fin 32) : Bool := r.buttons.getLsbD i

end Sys2Proof.Machine
end

