-- ==== Sys2Proof/Machine/BitField.lean ====
section
/-! DEFINITION. The bit unpacker and packer BP: EXT, INJ, BSET, ZFILL (R170 to R174). -/

namespace Sys2Proof.Machine

/-- EXT boff, len (R171). -/
def runExt (P : Params) (boff : BitVec 10) (len : BitVec 6) (s : State) : Result :=
  perform P (.ext boff len) [(fieldInBounds s boff len, .truncatedBuffer)] (fun s =>
    { s with xdata := bitRead s.buf boff.toNat len.toNat, xValid := true }) s

/-- EXT boff, len (R171), with the spec's parameters. -/
def execExt (boff : BitVec 10) (len : BitVec 6) (s : State) : Result := runExt params boff len s

/-- INJ boff, len, imm (R172). -/
def runInj (P : Params) (boff : BitVec 10) (len : BitVec 6) (imm : Byte) (s : State) : Result :=
  perform P (.inj boff len imm) [(fieldInBounds s boff len, .truncatedBuffer)] (fun s =>
    { s with buf := bitWrite s.buf boff.toNat len.toNat imm, crcFresh := false }) s

/-- INJ boff, len, imm (R172), with the spec's parameters. -/
def execInj (boff : BitVec 10) (len : BitVec 6) (imm : Byte) (s : State) : Result := runInj params boff len imm s

/-- BSET a, mask (R173). -/
def runBset (P : Params) (a mask : Byte) (s : State) : Result :=
  perform P (.bset a mask) [(byteInBounds s a, .truncatedBuffer)] (fun s =>
    { s with buf := bufWrite s.buf a.toNat (bufRead s.buf a.toNat ||| mask), crcFresh := false }) s

/-- BSET a, mask (R173), with the spec's parameters. -/
def execBset (a mask : Byte) (s : State) : Result := runBset params a mask s

/-- ZFILL n (R174). -/
def runZfill (P : Params) (n : Byte) (s : State) : Result :=
  perform P (.zfill n) [] (fun s =>
    { s with buf := bufZero s.buf n.toNat, bufLen := lengthOf n, formed := false, crcFresh := false }) s

/-- ZFILL n (R174), with the spec's parameters. -/
def execZfill (n : Byte) (s : State) : Result := runZfill params n s

end Sys2Proof.Machine
end

