-- ==== Sys2Proof/Machine/Checksum.lean ====
section
/-! DEFINITION. The checksum engine CE: its arithmetic (R140, R141, R144) and the operations CRCSEED, CRCBYTE, CRCFEED,
CRCFIN, CRCPUT, CRCSIGN (R142 to R158). -/

namespace Sys2Proof.Machine

/-! ### The arithmetic -/

/-- One of the eight shifts of crc_step (R140). -/
def crcShift (P : Params) (c : Word) : Word :=
  if c.getLsbD 0 then (c >>> 1) ^^^ P.crcPolyRefl else c >>> 1

/-- `n` shifts. -/
def crcShifts (P : Params) : Nat → Word → Word
  | 0, c => c
  | n + 1, c => crcShifts P n (crcShift P c)

/-- crc_step(c, b) (R140). -/
def crcStep (P : Params) (c : Word) (b : Byte) : Word := crcShifts P 8 (c ^^^ b.setWidth 32)

/-- crc_feed(c, s) (R141). -/
def crcFeed (P : Params) (c : Word) (bytes : List Byte) : Word := bytes.foldl (crcStep P) c

/-- seed_buf(x) (R141): the seed byte and CRC_SEED_BYTES - 1 zero bytes. -/
def seedBuf (P : Params) (x : Byte) : List Byte := x :: List.replicate (P.crcSeedBytes - 1) 0

/-- seed_state(x) (R141, R143). -/
def seedState (P : Params) (x : Byte) : Word := crcFeed P P.crcInit (seedBuf P x)

/-- std_crc32(s) (R141), with the standard initial value and final complement; it only states properties. -/
def stdCrc32 (P : Params) (bytes : List Byte) : Word := crcFeed P 0xFFFFFFFF bytes ^^^ 0xFFFFFFFF

/-! ### Signing a buffer (R158) -/

/-- N of R158: how many bytes the checksum of a report of length L is fed. -/
def coveredLen (P : Params) (L : Nat) : Nat := if P.crcCoversTrailer then L else L - 4

/-- R158's first line: the placeholder zeros. -/
def zeroTrailer (b : Buffer) (L : Nat) : Buffer := memWrite4 b (L - 4) 0

/-- R158's steps 1 and 2: the running checksum over the buffer with its trailer zeroed. -/
def signAcc (P : Params) (k : BitVec 2) (b : Buffer) (L : Nat) : Word :=
  crcFeed P (seedState P (seedByte P k)) (bufBytes (zeroTrailer b L) 0 (coveredLen P L))

/-- R158's step 3: the value stored. -/
def signRes (P : Params) (k : BitVec 2) (b : Buffer) (L : Nat) : Word := signAcc P k b L ^^^ P.crcFinalXor

/-- The effect of CRCSIGN k (R158), which ENCODE performs too (R205). -/
def sign (P : Params) (k : BitVec 2) (s : State) : State :=
  { s with
    buf := memWrite4 (zeroTrailer s.buf s.bufLen.toNat) (s.bufLen.toNat - 4) (signRes P k s.buf s.bufLen.toNat)
    crcAcc := signAcc P k s.buf s.bufLen.toNat
    crcRes := signRes P k s.buf s.bufLen.toNat
    crcSeeded := true, resValid := true, crcFresh := true }

/-! ### The operations -/

/-- CRCSEED k (R142). CRC_RES then holds no value; that its field keeps its bits is a DESIGN CHOICE (log 11). -/
def runCrcseed (P : Params) (k : BitVec 2) (s : State) : Result :=
  perform P (.crcseed k) [] (fun s =>
    { s with crcAcc := seedState P (seedByte P k), crcSeeded := true, resValid := false }) s

/-- CRCSEED k (R142), with the spec's parameters. -/
def execCrcseed (k : BitVec 2) (s : State) : Result := runCrcseed params k s

/-- CRCBYTE imm (R146). -/
def runCrcbyte (P : Params) (imm : Byte) (s : State) : Result :=
  perform P (.crcbyte imm) [(s.crcSeeded, .notReady)] (fun s => { s with crcAcc := crcStep P s.crcAcc imm }) s

/-- CRCBYTE imm (R146), with the spec's parameters. -/
def execCrcbyte (imm : Byte) (s : State) : Result := runCrcbyte params imm s

/-- CRCFEED a, n (R148). -/
def runCrcfeed (P : Params) (a n : Byte) (s : State) : Result :=
  perform P (.crcfeed a n) [(s.crcSeeded, .notReady), (runInBounds s a n, .truncatedBuffer)] (fun s =>
    { s with crcAcc := crcFeed P s.crcAcc (bufBytes s.buf a.toNat n.toNat) }) s

/-- CRCFEED a, n (R148), with the spec's parameters. -/
def execCrcfeed (a n : Byte) (s : State) : Result := runCrcfeed params a n s

/-- CRCFIN (R150). -/
def runCrcfin (P : Params) (s : State) : Result :=
  perform P .crcfin [(s.crcSeeded, .notReady)] (fun s =>
    { s with crcRes := s.crcAcc ^^^ P.crcFinalXor, resValid := true }) s

/-- CRCFIN (R150), with the spec's parameters. -/
def execCrcfin (s : State) : Result := runCrcfin params s

/-- CRCPUT (R152): it never certifies freshness. -/
def runCrcput (P : Params) (s : State) : Result :=
  perform P .crcput [(s.resValid, .notReady), (hasTrailer s, .truncatedBuffer)] (fun s =>
    { s with buf := memWrite4 s.buf (s.bufLen.toNat - 4) s.crcRes, crcFresh := false }) s

/-- CRCPUT (R152), with the spec's parameters. -/
def execCrcput (s : State) : Result := runCrcput params s

/-- CRCSIGN k (R158). -/
def runCrcsign (P : Params) (k : BitVec 2) (s : State) : Result :=
  perform P (.crcsign k) [(hasTrailer s, .truncatedBuffer)] (sign P k) s

/-- CRCSIGN k (R158), with the spec's parameters. -/
def execCrcsign (k : BitVec 2) (s : State) : Result := runCrcsign params k s

end Sys2Proof.Machine
end

