-- ==== Sys2Proof/Machine/Codec.lean ====
section
/-! DEFINITION. The transport-multiplexed codec TC: DECODE, BATPCT, ENCODE (R190 to R212). -/

namespace Sys2Proof.Machine

/-! ### Input side -/

/-- A touch point record at buffer offset p (R100, R191): each nibble of the shared byte goes to one coordinate. -/
def decodeTouch (b : Buffer) (p : Nat) : TouchPoint :=
  { id := bufRead b p
    x := (bufRead b (p + 1)).setWidth 16 ||| ((bufRead b (p + 2) &&& 0x0F).setWidth 16 <<< 8)
    y := (bufRead b (p + 2) >>> 4).setWidth 16 ||| ((bufRead b (p + 3)).setWidth 16 <<< 4) }

/-- The projection of DECODE (R98, R191), with the input structure at offset `base`. Under a wrong IN_OFF (R258) it reads
where the record says, beyond BUF_LEN or BUF_SIZE too: DESIGN CHOICE (log 13). -/
def decodeInput (P : Params) (base : Nat) (b : Buffer) : InRegs :=
  { x := bufRead b (base + P.inOff.x)
    y := bufRead b (base + P.inOff.y)
    rx := bufRead b (base + P.inOff.rx)
    ry := bufRead b (base + P.inOff.ry)
    z := bufRead b (base + P.inOff.z)
    rz := bufRead b (base + P.inOff.rz)
    seq := bufRead b (base + P.inOff.seq)
    buttons := memRead4 b (base + P.inOff.buttons)
    gyro := #v[memRead2 b (base + P.inOff.gyro), memRead2 b (base + P.inOff.gyro + 2),
      memRead2 b (base + P.inOff.gyro + 4)]
    accel := #v[memRead2 b (base + P.inOff.accel), memRead2 b (base + P.inOff.accel + 2),
      memRead2 b (base + P.inOff.accel + 4)]
    ts := memRead4 b (base + P.inOff.ts)
    tp := #v[decodeTouch b (base + P.inOff.touch), decodeTouch b (base + P.inOff.touch + 4)]
    status := bufRead b (base + P.inOff.status) }

/-- The effect of DECODE under a layout (R191). PCT then holds no value; that its field keeps its bits is a DESIGN CHOICE
(log 11). -/
def decodeEffect (P : Params) (L : Layout) (s : State) : State :=
  { s with inp := decodeInput P L.inBase s.buf, inValid := true, pctValid := false }

/-- DECODE (R191): the transport is checked before the length (R224). -/
def runDecode (P : Params) (s : State) : Result :=
  perform P .decode [(hasLayout P s, .unsupportedTransport), (longEnough P s, .truncatedBuffer)] (fun s =>
    match layoutOf P s.tr with
    | some L => decodeEffect P L s
    | none => s) s

/-- DECODE (R191), with the spec's parameters. -/
def execDecode (s : State) : Result := runDecode params s

/-- The battery percentage of a status byte (R200): floor division, neither clamped nor faulting above 8 (U10). -/
def batteryPercent (status : Byte) : Byte := BitVec.ofNat 8 ((status &&& 0x0F).toNat * 100 / 8)

/-- BATPCT (R200). -/
def runBatpct (P : Params) (s : State) : Result :=
  perform P .batpct [(s.inValid, .notReady)] (fun s => { s with pct := batteryPercent s.inp.status, pctValid := true }) s

/-- BATPCT (R200), with the spec's parameters. -/
def execBatpct (s : State) : Result := runBatpct params s

/-! ### Output side -/

/-- R205: zero-initialise, the report id and, on BT, the framing bytes. -/
def encodeHeader (P : Params) (L : Layout) (s : State) : Buffer :=
  let b := bufWrite (bufZero s.buf L.outLen.toNat) 0 L.reportId
  if L.bt then bufWrite (bufWrite b P.outSeqOffBt (regC s 34)) P.outTagOffBt (regC s 35) else b

/-- R205's loop body: the registers of one group and its valid bits, if the group is populated. That the registers go in
rising order is a DESIGN CHOICE that only colliding offsets show (log 13). -/
def encodeGroup (P : Params) (L : Layout) (s : State) (b : Buffer) (g : Group) : Buffer :=
  if populated s g then
    let f := (groupRegs g).foldl (fun b r => bufWrite b (L.outBase + outOffset P r) (regC s r)) b
    let v := L.outBase + P.voff (P.vbyte g)
    bufWrite f v (bufRead f v ||| P.vmask g)
  else b

/-- The report that R205 builds before the checksum. The groups go in the order of GRP_EN's bits; where a record's offsets
collide the later write wins: DESIGN CHOICE (log 13). -/
def encodeReport (P : Params) (L : Layout) (s : State) : Buffer :=
  allGroups.foldl (encodeGroup P L s) (encodeHeader P L s)

/-- The effect of ENCODE under a layout (R205). -/
def encodeEffect (P : Params) (L : Layout) (s : State) : State :=
  let t := { s with buf := encodeReport P L s, bufLen := L.outLen }
  if L.bt then { sign P 0 t with formed := true } else { t with crcFresh := false, formed := true }

/-- ENCODE (R205). -/
def runEncode (P : Params) (s : State) : Result :=
  perform P .encode [(hasLayout P s, .unsupportedTransport)] (fun s =>
    match layoutOf P s.tr with
    | some L => encodeEffect P L s
    | none => s) s

/-- ENCODE (R205), with the spec's parameters. -/
def execEncode (s : State) : Result := runEncode params s

end Sys2Proof.Machine
end

