-- ==== Sys2Proof/Machine/HostAccess.lean ====
section
/-! DEFINITION. The host access operations NEWCYC, CLRCMD, SETTR, SETLEN, WRB, WRC (R121 to R126). -/

namespace Sys2Proof.Machine

/-- NEWCYC (R121): no precondition; the only operation obeyed in lockout. -/
def execNewcyc (s : State) : Result := .next (newCycle s)

/-- CLRCMD (R122). -/
def runClrcmd (P : Params) (s : State) : Result :=
  perform P .clrcmd [] (fun s => { s with c := Vector.replicate 36 0, grpEn := 0 }) s

/-- CLRCMD (R122), with the spec's parameters. -/
def execClrcmd (s : State) : Result := runClrcmd params s

/-- SETTR t (R123). -/
def runSettr (P : Params) (t : BitVec 2) (s : State) : Result :=
  perform P (.settr t) [] (fun s => { s with tr := t, formed := false, crcFresh := false }) s

/-- SETTR t (R123), with the spec's parameters. -/
def execSettr (t : BitVec 2) (s : State) : Result := runSettr params t s

/-- SETLEN n (R124). -/
def runSetlen (P : Params) (n : Byte) (s : State) : Result :=
  perform P (.setlen n) [] (fun s => { s with bufLen := lengthOf n, formed := false, crcFresh := false }) s

/-- SETLEN n (R124), with the spec's parameters. -/
def execSetlen (n : Byte) (s : State) : Result := runSetlen params n s

/-- WRB a, imm (R125): bounded by BUF_SIZE, not by BUF_LEN (R61). -/
def runWrb (P : Params) (a imm : Byte) (s : State) : Result :=
  perform P (.wrb a imm) [] (fun s =>
    { s with buf := bufWrite s.buf a.toNat imm, formed := false, crcFresh := false }) s

/-- WRB a, imm (R125), with the spec's parameters. -/
def execWrb (a imm : Byte) (s : State) : Result := runWrb params a imm s

/-- WRC r, imm (R126). -/
def runWrc (P : Params) (r imm : Byte) (s : State) : Result :=
  perform P (.wrc r imm) [] (fun s => { s with c := setRegC s r.toNat imm, grpEn := populate s.grpEn r.toNat }) s

/-- WRC r, imm (R126), with the spec's parameters. -/
def execWrc (r imm : Byte) (s : State) : Result := runWrc params r imm s

end Sys2Proof.Machine
end

