-- ==== Sys2Proof/Machine/Dispatch.lean ====
section
/-! DEFINITION. One arm a constructor of Instr. -/

namespace Sys2Proof.Machine

def exec (i : Instr) (s : State) : Host.Outcome State Fault Refusal :=
  match i with
  | .newcyc => Sys2Proof.Machine.execNewcyc s
  | .clrcmd => Sys2Proof.Machine.execClrcmd s
  | .settr t => Sys2Proof.Machine.execSettr t s
  | .setlen n => Sys2Proof.Machine.execSetlen n s
  | .wrb a imm => Sys2Proof.Machine.execWrb a imm s
  | .wrc r imm => Sys2Proof.Machine.execWrc r imm s
  | .crcseed k => Sys2Proof.Machine.execCrcseed k s
  | .crcbyte imm => Sys2Proof.Machine.execCrcbyte imm s
  | .crcfeed a n => Sys2Proof.Machine.execCrcfeed a n s
  | .crcfin => Sys2Proof.Machine.execCrcfin s
  | .crcput => Sys2Proof.Machine.execCrcput s
  | .crcsign k => Sys2Proof.Machine.execCrcsign k s
  | .ext boff len => Sys2Proof.Machine.execExt boff len s
  | .inj boff len imm => Sys2Proof.Machine.execInj boff len imm s
  | .bset a mask => Sys2Proof.Machine.execBset a mask s
  | .zfill n => Sys2Proof.Machine.execZfill n s
  | .decode => Sys2Proof.Machine.execDecode s
  | .batpct => Sys2Proof.Machine.execBatpct s
  | .encode => Sys2Proof.Machine.execEncode s

end Sys2Proof.Machine
end

