-- ==== Sys2Proof/Machine/Port.lean ====
section
/-! DEFINITION. The command port (R120), the observation port (R127), the reset event (R250), and how the host's events
are served one at a time (R24, R69). -/

namespace Sys2Proof.Machine

/-- `step(w)` of R120: one command word, consumed whatever it is (R24). `run` performs an operation. An illegal word is
diagnosed only outside lockout (R227). -/
def issueBy (P : Params) (run : Instr → State → Result) (w : Word) (s : State) : Result :=
  match decodeWith P w with
  | .ok i => run i s
  | .error _ => if s.err ≠ 0 then .next s else .next (raise P .illegalCommand w s)

/-- R120 with the spec's parameters. -/
def issue (w : Word) (s : State) : Result := issueBy params exec w s

/-! ### Observation -/

/-- A register's value while its flag is 1; otherwise the free draw (R37). -/
def guarded (flag : Bool) (v draw : Word) : Word := if flag then v else draw

/-- The value the host is handed (R127), zero-extended to 32 bits. `n` numbers the observation: while its flag is 0 a
guarded register gives the free value `Config.freeRead` of the block's source and n, cut to the register's width (R37,
log 3). A byte at or above BUF_SIZE does not exist and no rule lets the host name it; it gives a free value too (log 8). -/
def observeWith (P : Params) (r : ObsName) (n : Nat) (s : State) : Word :=
  let d := Config.freeRead s.buf.source n
  let d16 : Word := (d.setWidth 16).setWidth 32
  let d8 : Word := (d.setWidth 8).setWidth 32
  match r with
  | .c i => s.c[i].setWidth 32
  | .grpEn => s.grpEn.setWidth 32
  | .tr => s.tr.setWidth 32
  | .bufLen => s.bufLen.setWidth 32
  | .status => (statusByteWith P s).setWidth 32
  | .err => s.err.setWidth 32
  | .errInfo => s.errInfo
  | .crcAcc => guarded s.crcSeeded s.crcAcc d
  | .crcRes => guarded s.resValid s.crcRes d
  | .xdata => guarded s.xValid s.xdata d
  | .pct => guarded s.pctValid (s.pct.setWidth 32) d8
  | .inX => guarded s.inValid (s.inp.x.setWidth 32) d8
  | .inY => guarded s.inValid (s.inp.y.setWidth 32) d8
  | .inRx => guarded s.inValid (s.inp.rx.setWidth 32) d8
  | .inRy => guarded s.inValid (s.inp.ry.setWidth 32) d8
  | .inZ => guarded s.inValid (s.inp.z.setWidth 32) d8
  | .inRz => guarded s.inValid (s.inp.rz.setWidth 32) d8
  | .inSeq => guarded s.inValid (s.inp.seq.setWidth 32) d8
  | .inButtons => guarded s.inValid s.inp.buttons d
  | .inGyro i => guarded s.inValid (s.inp.gyro[i].setWidth 32) d16
  | .inAccel i => guarded s.inValid (s.inp.accel[i].setWidth 32) d16
  | .inTs => guarded s.inValid s.inp.ts d
  | .inTpId i => guarded s.inValid (s.inp.tp[i].id.setWidth 32) d8
  | .inTpX i => guarded s.inValid (s.inp.tp[i].x.setWidth 32) d16
  | .inTpY i => guarded s.inValid (s.inp.tp[i].y.setWidth 32) d16
  | .inStatus => guarded s.inValid (s.inp.status.setWidth 32) d8
  | .buf a => if a.toNat < P.bufSize then (bufRead s.buf a.toNat).setWidth 32 else d8

/-- R127 with the spec's parameters. -/
def observe (r : ObsName) (n : Nat) (s : State) : Word := observeWith params r n s

/-- The host is handed the value of an observation: no state of the block changes (R127). -/
def hand (v : Word) (s : State) : State := { s with host := { s.host with reads := s.host.reads + 1, saw := v } }

/-- The host observes (R127). -/
def observeEvent (r : ObsName) (s : State) : State := hand (observe r s.host.reads s) s

/-! ### Reset -/

/-- The reset event (R250): every piece of the block's state at its reset value, with unspecified buffer contents of its
own (R38); the host's side is not the block's and stays: DESIGN CHOICE (log 9), safe. -/
def resetEvent (s : State) : State :=
  { State.reset with buf := ⟨[], s.buf.epoch + 1, s.buf.source⟩, host := s.host }

/-! ### One event -/

/-- The state with the host's script advanced to `rest`. -/
def advance (rest : List HostEvent) (s : State) : State := { s with host := { s.host with script := rest } }

/-- The next event of the host's script, whole; with none left, the block waits and nothing changes: DESIGN CHOICE
(log 4), safe. -/
def serveBy (issue : Word → State → Result) (look : ObsName → Nat → State → Word) (s : State) : Result :=
  match s.host.script with
  | [] => .next s
  | .command w :: rest => issue w (advance rest s)
  | .observe r :: rest =>
    let t := advance rest s
    .next (hand (look r t.host.reads t) t)
  | .reset :: rest => .next (resetEvent (advance rest s))

/-- One event with the spec's parameters. -/
def serve (s : State) : Result := serveBy issue observe s

/-- The host's script with the command word w issued next. -/
def issueNext (w : Word) (s : State) : State := advance (.command w :: s.host.script) s

end Sys2Proof.Machine
end

