-- ==== Sys2Proof/Machine/Step.lean ====
section
/-! DEFINITION. The step, and how the host's check places one instruction to run next. -/

namespace Sys2Proof.Machine

/-- One step: the host's next event. -/
def step (s : State) : Host.Outcome State Fault Refusal := serve s

/-- The block fetches nothing (R24, R67): a program is the host's list of command words. `withFetchWord` puts the word at
the head of it, bits above `nbits` zero, so that the very next step performs it (log 4). -/
def State.withFetchWord (s : State) (nbits w : Nat) : State := issueNext (BitVec.ofNat 32 (w % 2 ^ nbits)) s

end Sys2Proof.Machine
end

