-- ==== Sys2Proof/Machine/Instances.lean ====
section
/-! DEFINITION. Several instances of the block (R245): independent copies of the state, driven under any interleaving. -/

namespace Sys2Proof.Machine

/-- n freshly reset instances (R245: all reset alike). Each has a source of unspecified values of its own, so that nothing
relates what two of them hold where the spec leaves it open (R37, R38; log 10). -/
def freshInstances (n : Nat) : List State :=
  (List.range n).map fun k => { State.reset with buf := { State.reset.buf with source := k } }

/-- One step of instance k; the others are untouched. Nothing happens if there is no instance k. -/
def stepInstance (k : Nat) (blocks : List State) : List State :=
  match blocks[k]? with
  | some s =>
    match step s with
    | .next t => blocks.set k t
    | .fault _ => blocks
    | .refused _ => blocks
  | none => blocks

/-- One instance alone, for n steps. -/
def runSteps : Nat → State → State
  | 0, s => s
  | n + 1, s =>
    match step s with
    | .next t => runSteps n t
    | .fault _ => s
    | .refused _ => s

/-- An interleaving: which instance takes each step. -/
def interleave (order : List Nat) (blocks : List State) : List State :=
  order.foldl (fun blocks k => stepInstance k blocks) blocks

end Sys2Proof.Machine
end

