-- ==== Sys2Proof/Safety.lean ====
section
/-! DEFINITION. What claims about whole runs are stated in: the transmission (R259), the invariants of the block, and the
register whose flag guards it (R37). -/

namespace Sys2Proof.Machine

/-- What the host may transmit (R243, R259): all BUF_LEN bytes when TXRDY = 1, and nothing otherwise. -/
def transmission (s : State) : Option (List Byte) :=
  if txReady s then some (bufBytes s.buf 0 s.bufLen.toNat) else none

/-- The buffer's list of bytes has its canonical form (R35). -/
abbrev BufferCanonical (s : State) : Prop := s.buf.cells.wf = true

/-- R28, R35: BUF_LEN is at most BUF_SIZE, and no byte at or above it is written. -/
abbrev BufferInRange (s : State) : Prop := s.bufLen.toNat ≤ 78 ∧ ∀ cell ∈ s.buf.cells, cell.1 < 78

/-- R33, R196: bits 15:12 of the touch coordinates are 0, while those registers hold a value (R37). -/
abbrev TouchIn12Bits (s : State) : Prop := s.inValid = true → ∀ n : Fin 2, s.inp.tp[n].x.toNat ≤ 4095 ∧ s.inp.tp[n].y.toNat ≤ 4095

/-- R208: the registers of a group that is not populated are 0. -/
abbrev UnpopulatedIsZero (s : State) : Prop :=
  ∀ r : Fin 36, ∀ g ∈ allGroups, groupOf r = some g → populated s g = false → regC s r = 0

/-- R220: ERR holds 0, 4, 5, 7 or 8. -/
abbrev ErrIsRaisable (s : State) : Prop := s.err = 0 ∨ s.err = 4 ∨ s.err = 5 ∨ s.err = 7 ∨ s.err = 8

/-- R29: ERR_INFO is 0 when ERR = 0. -/
abbrev InfoOnlyWithErr (s : State) : Prop := s.err = 0 → s.errInfo = 0

/-- R25's columns: a percentage belongs to a decoded snapshot, a result to a seeded run. -/
abbrev FlagsNested (s : State) : Prop :=
  (s.pctValid = true → s.inValid = true) ∧ (s.resValid = true → s.crcSeeded = true)

/-- R205 with R25's column for FORMED: a formed report has its transport's length. -/
abbrev FormedHasItsLength (s : State) : Prop :=
  s.formed = true → (s.tr = params.trUsb ∧ s.bufLen = params.outLenUsb) ∨ (s.tr = params.trBt ∧ s.bufLen = params.outLenBt)

/-- The trailer is the checksum, of some report kind, of the buffer's present contents (R158, R259). -/
abbrev TrailerCurrent (s : State) : Prop :=
  4 ≤ s.bufLen.toNat ∧ ∃ k : BitVec 2, k ≠ 3 ∧ memRead4 s.buf (s.bufLen.toNat - 4) = signRes params k s.buf s.bufLen.toNat

/-- R257, R259: CRC_FRESH = 1 says that the trailer is current. -/
abbrev FreshIsCurrent (s : State) : Prop := s.crcFresh = true → TrailerCurrent s

/-- R37: the states differ, in the block, at most in registers that hold no value because their flag is 0. -/
abbrev SameValues (s t : State) : Prop :=
  s.c = t.c ∧ s.grpEn = t.grpEn ∧ s.tr = t.tr ∧ s.bufLen = t.bufLen ∧ s.buf = t.buf ∧ s.err = t.err ∧
  s.errInfo = t.errInfo ∧ s.inValid = t.inValid ∧ s.pctValid = t.pctValid ∧ s.xValid = t.xValid ∧
  s.crcSeeded = t.crcSeeded ∧ s.resValid = t.resValid ∧ s.formed = t.formed ∧ s.crcFresh = t.crcFresh ∧
  (s.crcSeeded = true → s.crcAcc = t.crcAcc) ∧ (s.resValid = true → s.crcRes = t.crcRes) ∧
  (s.xValid = true → s.xdata = t.xdata) ∧ (s.pctValid = true → s.pct = t.pct) ∧
  (s.inValid = true → s.inp = t.inp)

/-! ### Faults, as the table of R221 gives them -/

/-- Fault entry (R225) with a code of R220. -/
abbrev faulted (code : BitVec 4) (w : Word) (s : State) : State := { s with err := code, errInfo := w }

/-- R221, NotReady: the operation reads a guarded register whose flag is 0. -/
def notReadyCause (i : Instr) (s : State) : Bool :=
  match i with
  | .crcbyte _ | .crcfeed _ _ | .crcfin => !s.crcSeeded
  | .crcput => !s.resValid
  | .batpct => !s.inValid
  | _ => false

/-- R221, UnsupportedTransport: TR is 2 or 3. -/
def unsupportedCause (i : Instr) (s : State) : Bool :=
  match i with
  | .decode | .encode => decide (s.tr = 2 ∨ s.tr = 3)
  | _ => false

/-- R221, TruncatedBuffer: the operation needs buffer bytes at or beyond BUF_LEN. -/
def truncatedCause (i : Instr) (s : State) : Bool :=
  match i with
  | .decode => decide ((s.tr = 0 ∧ s.bufLen.toNat < 64) ∨ (s.tr = 1 ∧ s.bufLen.toNat < 78))
  | .crcfeed a n => decide (s.bufLen.toNat < a.toNat + n.toNat)
  | .crcput | .crcsign _ => decide (s.bufLen.toNat < 4)
  | .ext boff len | .inj boff len _ => decide (8 * s.bufLen.toNat < boff.toNat + len.toNat)
  | .bset a _ => decide (s.bufLen.toNat ≤ a.toNat)
  | _ => false

/-- R220 to R224: the code in ERR after an operation performed with ERR = 0. -/
def errorAfter (i : Instr) (s : State) : BitVec 4 :=
  if i.wellFormed = false then 7
  else if notReadyCause i s then 8
  else if unsupportedCause i s then 5
  else if truncatedCause i s then 4
  else 0

/-! ### Vocabulary of claims -/

/-- Several operations, one after the other. -/
def execAll : List Instr → State → Result
  | [], s => .next s
  | i :: rest, s =>
    match exec i s with
    | .next t => execAll rest t
    | .fault r => .fault r
    | .refused r => .refused r

/-- The tables of R106 and R21 in numbers, apart from the model's own parameters: a field's offset within the common command
fields, its register, and the bit of GRP_EN that stands for its group. -/
def reportRows : List (Nat × Fin 36 × Nat) :=
  [(2, 0, 0), (3, 1, 0), (4, 2, 1), (5, 3, 1), (6, 4, 1), (7, 5, 1), (9, 6, 2), (10, 7, 3)] ++
  [(11, 8, 3), (12, 9, 3), (13, 10, 3), (14, 11, 3), (15, 12, 3), (16, 13, 3), (17, 14, 3), (18, 15, 3)] ++
  [(19, 16, 3), (20, 17, 3), (21, 18, 4), (22, 19, 4), (23, 20, 4), (24, 21, 4), (25, 22, 4), (26, 23, 4)] ++
  [(27, 24, 4), (28, 25, 4), (29, 26, 4), (30, 27, 4), (31, 28, 4), (42, 29, 5), (43, 30, 6), (44, 31, 7)] ++
  [(45, 32, 7), (46, 33, 7)]

/-- A field as the report holds it (R205, R208): the register if its group is populated, else 0. -/
def fieldValue (s : State) (row : Nat × Fin 36 × Nat) : Byte := if s.grpEn.getLsbD row.2.2 then s.c[row.2.1] else 0

/-- A valid bit's mask if the group is populated (R108). -/
def maskIf (s : State) (group : Nat) (mask : Byte) : Byte := if s.grpEn.getLsbD group then mask else 0

/-- The common command fields at offset B hold the command (R106, R108, R207, R208, R109), in the numbers of the tables:
every field, the three valid-flag bytes, and zeros between. -/
abbrev HoldsCommand (b : Buffer) (B : Nat) (s : State) : Prop :=
  (∀ row ∈ reportRows, bufRead b (B + row.1) = fieldValue s row) ∧
  bufRead b B = maskIf s 0 0x03 ||| maskIf s 3 0x04 ||| maskIf s 4 0x08 ∧
  bufRead b (B + 1) = maskIf s 2 0x02 ||| maskIf s 1 0x80 ∧
  bufRead b (B + 38) = maskIf s 5 0x01 ||| maskIf s 7 0x02 ||| maskIf s 6 0x04 ∧
  ∀ x ∈ [8, 32, 33, 34, 35, 36, 37, 39, 40, 41], bufRead b (B + x) = 0

/-- A bit offset, a length, and a register's value. -/
abbrev FieldRow := BitVec 10 × BitVec 6 × Word

/-- R175's rows for touch point n, whose record starts at bit `b`. -/
def touchFields (r : InRegs) (n : Fin 2) (b : BitVec 10) : List FieldRow :=
  [(b, 8, r.tp[n].id.setWidth 32), (b, 7, (tpIndex r n).setWidth 32),
   (b + 7, 1, (BitVec.ofBool (tpFlag r n)).setWidth 32), (b + 8, 12, r.tp[n].x.setWidth 32),
   (b + 20, 12, r.tp[n].y.setWidth 32)]

/-- R175's rows for the other fields. -/
def plainFields (r : InRegs) : List FieldRow :=
  [(8, 8, r.x.setWidth 32), (16, 8, r.y.setWidth 32), (24, 8, r.rx.setWidth 32), (32, 8, r.ry.setWidth 32),
   (40, 8, r.z.setWidth 32), (48, 8, r.rz.setWidth 32), (56, 8, r.seq.setWidth 32), (64, 32, r.buttons),
   (128, 16, r.gyro[0].setWidth 32), (144, 16, r.gyro[1].setWidth 32), (160, 16, r.gyro[2].setWidth 32),
   (176, 16, r.accel[0].setWidth 32), (192, 16, r.accel[1].setWidth 32), (208, 16, r.accel[2].setWidth 32),
   (224, 32, r.ts), (424, 8, r.status.setWidth 32), (424, 4, (batteryLevel r).setWidth 32),
   (428, 4, (statusFlags r).setWidth 32)]

/-- R175's table with base = 1: the bit offset and length of the EXT that reads a field, and the register DECODE wrote. -/
def inputFields (r : InRegs) : List FieldRow :=
  plainFields r ++ touchFields r 0 264 ++ touchFields r 1 296

end Sys2Proof.Machine
end

