-- ==== Sys2Proof/Certificates/Slice0/Obligations.lean ====
section
/-! DEFINITION. The statements for the provers. Each is a proposition about the model, made from the rules of spec/ that
its docstring names. None rests on the value of a free value. -/

open Sys2Proof Sys2Proof.Machine

/-! ### Encoding -/

/-- Every well-formed operation, with every operand at every value its encoding admits, is what its word decodes to
(30_encoding.md A.1 to A.4). -/
def Obligations.DecodeOfEncodeIsTheOperation : Prop :=
  ∀ i : Instr, i.wellFormed = true → decode (encode i) = .ok i

/-- R85: a word that is not illegal is exactly one operation with operands in range: it is that operation's encoding. -/
def Obligations.LegalWordIsItsOperationsEncoding : Prop :=
  ∀ (w : Word) (i : Instr), decode w = .ok i → i.wellFormed = true ∧ encode i = w

/-- R85: decode(w) finds the row of R76 with `w and mask = match`, is illegal if there is none, applies R79, and
otherwise gives the row's operation with its operand fields; at most one row matches (R76). -/
def Obligations.DecoderFollowsTheOpcodeMap : Prop :=
  ∀ w : Word,
    (∀ r ∈ opcodeMap, selects r w = true →
      mnemonic (r.operands w) = r.name ∧
      decode w = if (r.operands w).wellFormed = true then .ok (r.operands w) else .error .operandRange) ∧
    ((∀ r ∈ opcodeMap, selects r w = false) → decode w = .error .reservedOpcode ∨ decode w = .error .mustBeZero) ∧
    (∀ r ∈ opcodeMap, ∀ q ∈ opcodeMap, selects r w = true → selects q w = true → r.name = q.name)

/-- R77: a word whose operation code is reserved raises IllegalCommand. -/
def Obligations.ReservedOpcodesAreIllegal : Prop :=
  ∀ (w : Word) (s : State), s.err = 0 →
    (let op := w.toNat / 2 ^ 24
     op = 0 ∨ (0x07 ≤ op ∧ op ≤ 0x0F) ∨ (0x16 ≤ op ∧ op ≤ 0x1F) ∨ (0x24 ≤ op ∧ op ≤ 0x2F) ∨ 0x33 ≤ op) →
    decode w = .error .reservedOpcode ∧ issue w s = .next (faulted 7 w s)

/-- R78: a word whose operation code is that of a row, and whose must-be-zero bits are not all 0, matches no row and raises
IllegalCommand. -/
def Obligations.NonzeroReservedBitsAreIllegal : Prop :=
  ∀ r ∈ opcodeMap, ∀ (w : Word) (s : State), s.err = 0 → opField w = opField r.pattern →
    w &&& r.mask ≠ r.pattern →
    (∀ q ∈ opcodeMap, selects q w = false) ∧ issue w s = .next (faulted 7 w s)

/-- R79: a word that matches a row is still illegal, with no state change but the fault entry, when an operand is outside
its range; SETTR accepts all four values of t, and a and boff have no limit in BSET, CRCFEED, EXT and INJ. -/
def Obligations.OperandsOutOfRangeAreIllegal : Prop :=
  (∀ s : State, s.err = 0 → ∀ i : Instr,
    (i = .crcseed 3 ∨ i = .crcsign 3 ∨
     (∃ n : Byte, 78 < n.toNat ∧ (i = .setlen n ∨ i = .zfill n)) ∨
     (∃ a v : Byte, 78 ≤ a.toNat ∧ i = .wrb a v) ∨
     (∃ r v : Byte, 36 ≤ r.toNat ∧ i = .wrc r v) ∨
     (∃ (b : BitVec 10) (l : BitVec 6), (l = 0 ∨ 32 < l.toNat) ∧ i = .ext b l) ∨
     (∃ (b : BitVec 10) (l : BitVec 6) (v : Byte), (l = 0 ∨ 8 < l.toNat ∨ 2 ^ l.toNat ≤ v.toNat) ∧ i = .inj b l v)) →
    issue (encode i) s = .next (faulted 7 (encode i) s)) ∧
  (∀ t : BitVec 2, decode (encode (.settr t)) = .ok (.settr t)) ∧
  (∀ a v : Byte, decode (encode (.bset a v)) = .ok (.bset a v) ∧ decode (encode (.crcfeed a v)) = .ok (.crcfeed a v)) ∧
  (∀ (b : BitVec 10) (l : BitVec 6), 1 ≤ l.toNat → l.toNat ≤ 32 → decode (encode (.ext b l)) = .ok (.ext b l)) ∧
  (∀ (b : BitVec 10) (l : BitVec 6) (v : Byte), 1 ≤ l.toNat → l.toNat ≤ 8 → v.toNat < 2 ^ l.toNat →
    decode (encode (.inj b l v)) = .ok (.inj b l v))

/-- Words written out in the rules and in 95_test_vectors.md, one or more a format, decode to their operations. -/
def Obligations.WordsOfTheRulesDecode : Prop :=
  decode 0x01000000 = .ok .newcyc ∧ decode 0x03000001 = .ok (.settr 1) ∧ decode 0x04000040 = .ok (.setlen 64) ∧
  decode 0x050035F4 = .ok (.wrb 53 0xF4) ∧ decode 0x06001FFF = .ok (.wrc 31 255) ∧
  decode 0x15000002 = .ok (.crcsign 2) ∧ decode 0x12000405 = .ok (.crcfeed 4 5) ∧
  decode 0x20440C00 = .ok (.ext 272 12) ∧ decode 0x21620880 = .ok (.inj 392 8 0x80) ∧
  decode 0x22002902 = .ok (.bset 41 2) ∧ decode 0x32000000 = .ok .encode

/-! ### The step -/

/-- When the word at the head of the host's script decodes to an operation, the step is that operation at the state with
the word consumed. -/
def Obligations.StepRunsTheDecodedOperation : Prop :=
  ∀ (s : State) (w : Word) (rest : List HostEvent) (i : Instr),
    s.host.script = .command w :: rest → decode w = .ok i → step s = exec i (advance rest s)

/-- R77 to R79, R120: when it is illegal, and no error is pending, the step raises IllegalCommand with the word as info. -/
def Obligations.StepOnAnIllegalWordRaises : Prop :=
  ∀ (s : State) (w : Word) (rest : List HostEvent) (r : Reject),
    s.host.script = .command w :: rest → decode w = .error r → s.err = 0 →
    step s = .next (faulted 7 w (advance rest s))

/-- R227: while ERR is not 0 every command word other than 0x01000000 is consumed and ignored. -/
def Obligations.LockoutIgnoresEveryOtherWord : Prop :=
  ∀ (s : State) (w : Word) (rest : List HostEvent),
    s.host.script = .command w :: rest → s.err ≠ 0 → w ≠ 0x01000000 → step s = .next (advance rest s)

/-- R24 of command words: each is consumed exactly once, in the order they come, and the machine never stops. The model's
choices, and no rule of the spec: that the same list holds observations and resets and a step takes one (log 4), that the
host's remaining events outlast a reset (log 9), and that with none left nothing changes (log 4). -/
def Obligations.EveryStepConsumesOneEvent : Prop :=
  ∀ s : State, ∃ t : State, step s = .next t ∧ t.host.script = s.host.script.tail ∧
    (s.host.script = [] → t = s)

/-- R127: an observation changes no state of the block, and hands the host the register's value, one line a register: a
guarded register's content while its flag is 1, any byte of BUF below 78. The free value of the other cases, and the
extension by zeros, are logs 3 and 8. -/
def Obligations.ObservationChangesNoBlockState : Prop :=
  ∀ (s : State) (r : ObsName) (rest : List HostEvent), s.host.script = .observe r :: rest →
    ∃ v : Word, step s = .next { s with host := ⟨rest, s.host.reads + 1, v⟩ } ∧
      match r with
      | .c i => v = s.c[i].setWidth 32
      | .grpEn => v = s.grpEn.setWidth 32
      | .tr => v = s.tr.setWidth 32
      | .bufLen => v = s.bufLen.setWidth 32
      | .status => v = (statusByte s).setWidth 32
      | .err => v = s.err.setWidth 32
      | .errInfo => v = s.errInfo
      | .crcAcc => s.crcSeeded = true → v = s.crcAcc
      | .crcRes => s.resValid = true → v = s.crcRes
      | .xdata => s.xValid = true → v = s.xdata
      | .pct => s.pctValid = true → v = s.pct.setWidth 32
      | .inX => s.inValid = true → v = s.inp.x.setWidth 32
      | .inY => s.inValid = true → v = s.inp.y.setWidth 32
      | .inRx => s.inValid = true → v = s.inp.rx.setWidth 32
      | .inRy => s.inValid = true → v = s.inp.ry.setWidth 32
      | .inZ => s.inValid = true → v = s.inp.z.setWidth 32
      | .inRz => s.inValid = true → v = s.inp.rz.setWidth 32
      | .inSeq => s.inValid = true → v = s.inp.seq.setWidth 32
      | .inButtons => s.inValid = true → v = s.inp.buttons
      | .inGyro i => s.inValid = true → v = s.inp.gyro[i].setWidth 32
      | .inAccel i => s.inValid = true → v = s.inp.accel[i].setWidth 32
      | .inTs => s.inValid = true → v = s.inp.ts
      | .inTpId n => s.inValid = true → v = s.inp.tp[n].id.setWidth 32
      | .inTpX n => s.inValid = true → v = s.inp.tp[n].x.setWidth 32
      | .inTpY n => s.inValid = true → v = s.inp.tp[n].y.setWidth 32
      | .inStatus => s.inValid = true → v = s.inp.status.setWidth 32
      | .buf a => a.toNat < 78 → v = (bufRead s.buf a.toNat).setWidth 32

/-- R38, R250, R251: the reset state has the values that R38 gives; and a reset event puts every piece of the block's
state at its reset value, whatever it was, with no byte of BUF written, and leaves the host's remaining script. -/
def Obligations.ResetGivesTheValuesOfItsTable : Prop :=
  ((∀ r : Fin 36, State.reset.c[r] = 0) ∧ State.reset.grpEn = 0 ∧ State.reset.tr = 3 ∧ State.reset.bufLen = 0 ∧
    State.reset.err = 0 ∧ State.reset.errInfo = 0 ∧ statusByte State.reset = 0 ∧ State.reset.buf.cells = []) ∧
  ∀ (s : State) (rest : List HostEvent), s.host.script = .reset :: rest →
    ∃ t : State, step s = .next t ∧ (∀ r : Fin 36, t.c[r] = 0) ∧ t.grpEn = 0 ∧ t.tr = 3 ∧ t.bufLen = 0 ∧ t.err = 0 ∧
      t.errInfo = 0 ∧ statusByte t = 0 ∧ t.buf.cells = [] ∧ t.host.script = rest

/-! ### Faults -/

/-- R221, R224: the code that ERR holds after any operation performed with ERR = 0 is that of the first failing check in
the order IllegalCommand, NotReady, UnsupportedTransport, TruncatedBuffer, with the causes of R221's table, and 0 if none
fails. -/
def Obligations.ErrorOfEveryOperation : Prop :=
  ∀ (i : Instr) (s : State), s.err = 0 → ∃ t : State, exec i s = .next t ∧ t.err = errorAfter i s

/-- R223, R225: a fault records the code in ERR and the whole command word in ERR_INFO, and changes nothing else; TXRDY
becomes 0. -/
def Obligations.FaultsChangeOnlyErrAndErrInfo : Prop :=
  ∀ (i : Instr) (s t : State), s.err = 0 → exec i s = .next t → t.err ≠ 0 →
    t = faulted t.err (encode i) s ∧ txReady t = false

/-! ### Host access -/

/-- R121: NEWCYC, in every state. Of the guarded registers, which hold no value afterwards, nothing is said (log 11). -/
def Obligations.NewcycBeginsACycle : Prop :=
  encode .newcyc = 0x01000000 ∧
  ∀ s : State, ∃ t : State, exec .newcyc s = .next t ∧ t = { s with
    err := 0, errInfo := 0, bufLen := 0, inValid := false, pctValid := false, xValid := false
    crcSeeded := false, resValid := false, formed := false, crcFresh := false
    inp := t.inp, pct := t.pct, xdata := t.xdata, crcAcc := t.crcAcc, crcRes := t.crcRes }

/-- R122: CLRCMD. -/
def Obligations.ClrcmdClearsTheCommand : Prop :=
  encode .clrcmd = 0x02000000 ∧
  ∀ s : State, s.err = 0 → ∃ t : State, exec .clrcmd s = .next t ∧ (∀ r : Fin 36, t.c[r] = 0) ∧
    t = { s with c := t.c, grpEn := 0 }

/-- R123: SETTR, for all four transports; after one with no layout, DECODE and ENCODE raise UnsupportedTransport. -/
def Obligations.SettrSelectsTheTransport : Prop :=
  ∀ v : BitVec 2, encode (.settr v) = 0x03000000 ||| v.setWidth 32 ∧
  ∀ s : State, s.err = 0 → ∃ t : State, exec (.settr v) s = .next t ∧
    t = { s with tr := v, formed := false, crcFresh := false } ∧
    (v = 2 ∨ v = 3 → exec .decode t = .next (faulted 5 0x30000000 t) ∧ exec .encode t = .next (faulted 5 0x32000000 t))

/-- R124: SETLEN. -/
def Obligations.SetlenDeclaresTheLength : Prop :=
  ∀ n : Byte, encode (.setlen n) = 0x04000000 ||| n.setWidth 32 ∧
  ∀ s : State, s.err = 0 →
    (n.toNat ≤ 78 → ∃ t : State, exec (.setlen n) s = .next t ∧ t.bufLen.toNat = n.toNat ∧
      t = { s with bufLen := t.bufLen, formed := false, crcFresh := false }) ∧
    (78 < n.toNat → exec (.setlen n) s = .next (faulted 7 (encode (.setlen n)) s))

/-- R125: WRB. -/
def Obligations.WrbWritesOneByte : Prop :=
  ∀ a v : Byte, encode (.wrb a v) = 0x05000000 ||| a.setWidth 32 <<< 8 ||| v.setWidth 32 ∧
  ∀ s : State, s.err = 0 →
    (a.toNat < 78 → ∃ t : State, exec (.wrb a v) s = .next t ∧ bufRead t.buf a.toNat = v ∧
      (∀ x, x ≠ a.toNat → bufRead t.buf x = bufRead s.buf x) ∧
      t = { s with buf := t.buf, formed := false, crcFresh := false }) ∧
    (78 ≤ a.toNat → exec (.wrb a v) s = .next (faulted 7 (encode (.wrb a v)) s))

/-- R126: WRC, with the group of every register written out. -/
def Obligations.WrcWritesOneRegisterAndItsGroup : Prop :=
  ∀ r v : Byte, encode (.wrc r v) = 0x06000000 ||| r.setWidth 32 <<< 8 ||| v.setWidth 32 ∧
  ∀ s : State, s.err = 0 →
    (r.toNat < 36 → ∃ t : State, exec (.wrc r v) s = .next t ∧
      (∀ x : Fin 36, t.c[x] = if x.val = r.toNat then v else s.c[x]) ∧
      (∀ j, j < 8 → t.grpEn.getLsbD j = (s.grpEn.getLsbD j || decide (
        (j = 0 ∧ r.toNat ≤ 1) ∨ (j = 1 ∧ 2 ≤ r.toNat ∧ r.toNat ≤ 5) ∨ (j = 2 ∧ r.toNat = 6) ∨
        (j = 3 ∧ 7 ≤ r.toNat ∧ r.toNat ≤ 17) ∨ (j = 4 ∧ 18 ≤ r.toNat ∧ r.toNat ≤ 28) ∨ (j = 5 ∧ r.toNat = 29) ∨
        (j = 6 ∧ r.toNat = 30) ∨ (j = 7 ∧ 31 ≤ r.toNat ∧ r.toNat ≤ 33)))) ∧
      t = { s with c := t.c, grpEn := t.grpEn }) ∧
    (36 ≤ r.toNat → exec (.wrc r v) s = .next (faulted 7 (encode (.wrc r v)) s))

/-! ### The checksum engine -/

/-- R142 with the seed states of R143: CRCSEED. Of CRC_RES, which holds no value afterwards, nothing is said (log 11). -/
def Obligations.CrcseedSeedsTheRunningChecksum : Prop :=
  ∀ k : BitVec 2, encode (.crcseed k) = 0x10000000 ||| k.setWidth 32 ∧
  ∀ s : State, s.err = 0 →
    (k ≠ 3 → ∃ t : State, exec (.crcseed k) s = .next t ∧ t = { s with
      crcAcc := if k = 0 then 0x39D9F16D else if k = 1 then 0x2B6C5E83 else 0x81659608
      crcSeeded := true, resValid := false, crcRes := t.crcRes }) ∧
    (k = 3 → exec (.crcseed k) s = .next (faulted 7 (encode (.crcseed k)) s))

/-- R146: CRCBYTE. -/
def Obligations.CrcbyteFeedsOneByte : Prop :=
  ∀ v : Byte, encode (.crcbyte v) = 0x11000000 ||| v.setWidth 32 ∧
  ∀ s : State, s.err = 0 →
    (s.crcSeeded = true → exec (.crcbyte v) s = .next { s with crcAcc := crcStep params s.crcAcc v }) ∧
    (s.crcSeeded = false → exec (.crcbyte v) s = .next (faulted 8 (encode (.crcbyte v)) s))

/-- R148: CRCFEED, its checks in order, and its corner case: two over adjacent ranges equal one over their union. -/
def Obligations.CrcfeedFeedsBufferBytes : Prop :=
  ∀ a n : Byte, encode (.crcfeed a n) = 0x12000000 ||| a.setWidth 32 <<< 8 ||| n.setWidth 32 ∧
  ∀ s : State, s.err = 0 →
    (s.crcSeeded = true → a.toNat + n.toNat ≤ s.bufLen.toNat →
      exec (.crcfeed a n) s = .next { s with
        crcAcc := ((List.range n.toNat).map fun i => bufRead s.buf (a.toNat + i)).foldl (crcStep params) s.crcAcc }) ∧
    (s.crcSeeded = true → s.bufLen.toNat < a.toNat + n.toNat →
      exec (.crcfeed a n) s = .next (faulted 4 (encode (.crcfeed a n)) s)) ∧
    (s.crcSeeded = false → exec (.crcfeed a n) s = .next (faulted 8 (encode (.crcfeed a n)) s)) ∧
    (∀ m u : Byte, s.crcSeeded = true → u.toNat = n.toNat + m.toNat → a.toNat + u.toNat ≤ s.bufLen.toNat →
      ∃ t : State, execAll [.crcfeed a n, .crcfeed (a + n) m] s = .next t ∧ exec (.crcfeed a u) s = .next t)

/-- R150: CRCFIN. -/
def Obligations.CrcfinFinalises : Prop :=
  encode .crcfin = 0x13000000 ∧
  ∀ s : State, s.err = 0 →
    (s.crcSeeded = true → exec .crcfin s = .next { s with crcRes := s.crcAcc ^^^ 0xFFFFFFFF, resValid := true }) ∧
    (s.crcSeeded = false → exec .crcfin s = .next (faulted 8 (encode .crcfin) s))

/-- R152: CRCPUT, its checks in order. -/
def Obligations.CrcputStoresTheResult : Prop :=
  encode .crcput = 0x14000000 ∧
  ∀ s : State, s.err = 0 →
    (s.resValid = true → 4 ≤ s.bufLen.toNat → ∃ t : State, exec .crcput s = .next t ∧
      (∀ i, i < 4 → bufRead t.buf (s.bufLen.toNat - 4 + i) = s.crcRes.extractLsb' (8 * i) 8) ∧
      (∀ x, x < s.bufLen.toNat - 4 ∨ s.bufLen.toNat ≤ x → bufRead t.buf x = bufRead s.buf x) ∧
      t = { s with buf := t.buf, crcFresh := false }) ∧
    (s.resValid = true → s.bufLen.toNat < 4 → exec .crcput s = .next (faulted 4 (encode .crcput) s)) ∧
    (s.resValid = false → exec .crcput s = .next (faulted 8 (encode .crcput) s))

/-- R158: CRCSIGN. The running checksum is over the first BUF_LEN - 4 bytes and four zero bytes. -/
def Obligations.CrcsignSignsTheBuffer : Prop :=
  ∀ k : BitVec 2, encode (.crcsign k) = 0x15000000 ||| k.setWidth 32 ∧
  ∀ s : State, s.err = 0 →
    (k ≠ 3 → 4 ≤ s.bufLen.toNat → ∃ t : State, exec (.crcsign k) s = .next t ∧
      t.crcAcc = crcFeed params (if k = 0 then 0x39D9F16D else if k = 1 then 0x2B6C5E83 else 0x81659608)
        (bufBytes s.buf 0 (s.bufLen.toNat - 4) ++ [0, 0, 0, 0]) ∧
      t.crcRes = t.crcAcc ^^^ 0xFFFFFFFF ∧
      (∀ i, i < 4 → bufRead t.buf (s.bufLen.toNat - 4 + i) = t.crcRes.extractLsb' (8 * i) 8) ∧
      (∀ x, x < s.bufLen.toNat - 4 ∨ s.bufLen.toNat ≤ x → bufRead t.buf x = bufRead s.buf x) ∧
      t = { s with buf := t.buf, crcAcc := t.crcAcc, crcRes := t.crcRes
                   crcSeeded := true, resValid := true, crcFresh := true }) ∧
    (k ≠ 3 → s.bufLen.toNat < 4 → exec (.crcsign k) s = .next (faulted 4 (encode (.crcsign k)) s)) ∧
    (k = 3 → exec (.crcsign k) s = .next (faulted 7 (encode (.crcsign k)) s))

/-- R159, with the invariant that BUF_LEN is at most 78 (R28): CRCSIGN k leaves BUF, CRC_ACC and CRC_RES as the program of
CRC operations does; the two differ in flags only. -/
def Obligations.CrcsignEqualsItsProgram : Prop :=
  ∀ (s : State) (k : BitVec 2) (l : Byte), s.err = 0 → BufferInRange s → k ≠ 3 → 4 ≤ s.bufLen.toNat →
    l.toNat = s.bufLen.toNat →
    ∃ t u : State, exec (.crcsign k) s = .next t ∧
      execAll [.wrb (l - 4) 0, .wrb (l - 3) 0, .wrb (l - 2) 0, .wrb (l - 1) 0, .crcseed k, .crcfeed 0 l, .crcfin, .crcput] s
        = .next u ∧
      (∀ x, bufRead t.buf x = bufRead u.buf x) ∧ t.crcAcc = u.crcAcc ∧ t.crcRes = u.crcRes ∧
      u = { t with buf := u.buf, formed := false, crcFresh := false } ∧ t.crcFresh = true ∧ t.formed = s.formed

/-- R160: the stored value is the standard CRC-32 of the seed buffer and the report with its trailer zeroed. -/
def Obligations.TrailerIsTheStandardCrc32 : Prop :=
  ∀ (s t : State) (k : BitVec 2), s.err = 0 → k ≠ 3 → 4 ≤ s.bufLen.toNat → exec (.crcsign k) s = .next t →
    t.crcRes = stdCrc32 params
      ([if k = 0 then 0xA2 else if k = 1 then 0xA1 else 0xA3, 0, 0, 0] ++
        bufBytes s.buf 0 (s.bufLen.toNat - 4) ++ [0, 0, 0, 0])

/-- R165: after CRCSIGN k, CRC_RES is a function of k and of the first BUF_LEN - 4 bytes alone. -/
def Obligations.ChecksumDependsOnKindAndBodyAlone : Prop :=
  ∀ (s s' t t' : State) (k : BitVec 2), s.err = 0 → s'.err = 0 → k ≠ 3 → 4 ≤ s.bufLen.toNat → s.bufLen = s'.bufLen →
    (∀ x, x < s.bufLen.toNat - 4 → bufRead s.buf x = bufRead s'.buf x) →
    exec (.crcsign k) s = .next t → exec (.crcsign k) s' = .next t' → t.crcRes = t'.crcRes

/-- R165: a change confined to one byte below the trailer changes the checksum, with certainty. -/
def Obligations.ChangingOneByteChangesTheChecksum : Prop :=
  ∀ (s s' t t' : State) (k : BitVec 2) (a : Nat), s.err = 0 → s'.err = 0 → k ≠ 3 → 4 ≤ s.bufLen.toNat →
    s.bufLen = s'.bufLen → a < s.bufLen.toNat - 4 → bufRead s.buf a ≠ bufRead s'.buf a →
    (∀ x, x < s.bufLen.toNat - 4 → x ≠ a → bufRead s.buf x = bufRead s'.buf x) →
    exec (.crcsign k) s = .next t → exec (.crcsign k) s' = .next t' → t.crcRes ≠ t'.crcRes

/-- R141: the table-driven form computes the same function. -/
def Obligations.CrcStepIsTableDriven : Prop :=
  ∀ (c : Word) (v : Byte),
    crcStep params c v = (c >>> 8) ^^^ crcStep params ((c ^^^ v.setWidth 32) &&& 0xFF) 0

/-! ### Bit fields -/

/-- R171: EXT. -/
def Obligations.ExtExtractsABitField : Prop :=
  ∀ (b : BitVec 10) (l : BitVec 6), encode (.ext b l) = 0x20000000 ||| b.setWidth 32 <<< 14 ||| l.setWidth 32 <<< 8 ∧
  ∀ s : State, s.err = 0 →
    (1 ≤ l.toNat → l.toNat ≤ 32 → b.toNat + l.toNat ≤ 8 * s.bufLen.toNat → ∃ t : State, exec (.ext b l) s = .next t ∧
      (∀ j, j < 32 → t.xdata.getLsbD j =
        (decide (j < l.toNat) && (bufRead s.buf ((b.toNat + j) / 8)).getLsbD ((b.toNat + j) % 8))) ∧
      t = { s with xdata := t.xdata, xValid := true }) ∧
    (1 ≤ l.toNat → l.toNat ≤ 32 → 8 * s.bufLen.toNat < b.toNat + l.toNat →
      exec (.ext b l) s = .next (faulted 4 (encode (.ext b l)) s)) ∧
    (l.toNat = 0 ∨ 32 < l.toNat → exec (.ext b l) s = .next (faulted 7 (encode (.ext b l)) s))

/-- R172: INJ. -/
def Obligations.InjInjectsABitField : Prop :=
  ∀ (b : BitVec 10) (l : BitVec 6) (v : Byte),
  encode (.inj b l v) = 0x21000000 ||| b.setWidth 32 <<< 14 ||| l.setWidth 32 <<< 8 ||| v.setWidth 32 ∧
  ∀ s : State, s.err = 0 →
    (1 ≤ l.toNat → l.toNat ≤ 8 → v.toNat < 2 ^ l.toNat → b.toNat + l.toNat ≤ 8 * s.bufLen.toNat →
      ∃ t : State, exec (.inj b l v) s = .next t ∧
        (∀ j, bufBit t.buf j =
          if b.toNat ≤ j ∧ j < b.toNat + l.toNat then v.getLsbD (j - b.toNat) else bufBit s.buf j) ∧
        t = { s with buf := t.buf, crcFresh := false }) ∧
    (1 ≤ l.toNat → l.toNat ≤ 8 → v.toNat < 2 ^ l.toNat → 8 * s.bufLen.toNat < b.toNat + l.toNat →
      exec (.inj b l v) s = .next (faulted 4 (encode (.inj b l v)) s)) ∧
    (l.toNat = 0 ∨ 8 < l.toNat ∨ 2 ^ l.toNat ≤ v.toNat →
      exec (.inj b l v) s = .next (faulted 7 (encode (.inj b l v)) s))

/-- R173: BSET. -/
def Obligations.BsetSetsBitsOfOneByte : Prop :=
  ∀ a m : Byte, encode (.bset a m) = 0x22000000 ||| a.setWidth 32 <<< 8 ||| m.setWidth 32 ∧
  ∀ s : State, s.err = 0 →
    (a.toNat < s.bufLen.toNat → ∃ t : State, exec (.bset a m) s = .next t ∧
      bufRead t.buf a.toNat = bufRead s.buf a.toNat ||| m ∧
      (∀ x, x ≠ a.toNat → bufRead t.buf x = bufRead s.buf x) ∧
      t = { s with buf := t.buf, crcFresh := false }) ∧
    (s.bufLen.toNat ≤ a.toNat → exec (.bset a m) s = .next (faulted 4 (encode (.bset a m)) s))

/-- R174: ZFILL. -/
def Obligations.ZfillZeroesAndSetsTheLength : Prop :=
  ∀ n : Byte, encode (.zfill n) = 0x23000000 ||| n.setWidth 32 ∧
  ∀ s : State, s.err = 0 →
    (n.toNat ≤ 78 → ∃ t : State, exec (.zfill n) s = .next t ∧ t.bufLen.toNat = n.toNat ∧
      (∀ x, bufRead t.buf x = if x < n.toNat then 0 else bufRead s.buf x) ∧
      t = { s with buf := t.buf, bufLen := t.bufLen, formed := false, crcFresh := false }) ∧
    (78 < n.toNat → exec (.zfill n) s = .next (faulted 7 (encode (.zfill n)) s))

/-- R176: INJ and then EXT of the same field gives the value back, and INJ changes no bit that an EXT of a disjoint field
reads. -/
def Obligations.InjectThenExtractGivesTheValue : Prop :=
  ∀ (s : State) (b : BitVec 10) (l : BitVec 6) (v : Byte), s.err = 0 → 1 ≤ l.toNat → l.toNat ≤ 8 →
    v.toNat < 2 ^ l.toNat → b.toNat + l.toNat ≤ 8 * s.bufLen.toNat →
    (∃ t : State, execAll [.inj b l v, .ext b l] s = .next t ∧ t.err = 0 ∧ t.xdata = v.setWidth 32) ∧
    (∀ (c : BitVec 10) (m : BitVec 6), 1 ≤ m.toNat → m.toNat ≤ 32 → c.toNat + m.toNat ≤ 8 * s.bufLen.toNat →
      c.toNat + m.toNat ≤ b.toNat ∨ b.toNat + l.toNat ≤ c.toNat →
      ∃ t u : State, execAll [.inj b l v, .ext c m] s = .next t ∧ exec (.ext c m) s = .next u ∧ t.xdata = u.xdata)

/-- R57: the equivalences between bit fields, bytes and little-endian reads, and the two touch formulas. -/
def Obligations.BitFieldsAgreeWithBytes : Prop :=
  ∀ (f : Buffer) (a : Nat),
    bitRead f (8 * a) 8 = (bufRead f a).setWidth 32 ∧ bitRead f (8 * a) 16 = (memRead2 f a).setWidth 32 ∧
    bitRead f (8 * a) 32 = memRead4 f a ∧ bitRead f (8 * a) 4 = (bufRead f a &&& 0x0F).setWidth 32 ∧
    bitRead f (8 * a + 4) 4 = (bufRead f a >>> 4).setWidth 32 ∧
    bitRead f (8 * a + 7) 1 = (BitVec.ofBool ((bufRead f a).getLsbD 7)).setWidth 32 ∧
    bitRead f (8 * a) 7 = (bufRead f a &&& 0x7F).setWidth 32 ∧
    bitRead f (8 * a + 8) 12 =
      ((bufRead f (a + 1)).setWidth 32 ||| ((bufRead f (a + 2) &&& 0x0F).setWidth 32 <<< 8)) ∧
    bitRead f (8 * a + 20) 12 =
      ((bufRead f (a + 2) >>> 4).setWidth 32 ||| ((bufRead f (a + 3)).setWidth 32 <<< 4))

/-- R52: MemRead is the little-endian sum of its bytes. -/
def Obligations.MemReadIsTheLittleEndianSum : Prop :=
  ∀ (f : Buffer) (a : Nat),
    (memRead2 f a).toNat = ((List.range 2).map fun i => (bufRead f (a + i)).toNat * 2 ^ (8 * i)).sum ∧
    (memRead4 f a).toNat = ((List.range 4).map fun i => (bufRead f (a + i)).toNat * 2 ^ (8 * i)).sum

/-! ### The codec -/

/-- R191 with the offsets of R98: DECODE, for both transports, and the faults of R190 and R191 in their order. Of PCT, which
holds no value afterwards, nothing is said (log 11). -/
def Obligations.DecodeProjectsTheBuffer : Prop :=
  encode .decode = 0x30000000 ∧
  ∀ s : State, s.err = 0 →
    ((s.tr = 0 ∧ 64 ≤ s.bufLen.toNat) ∨ (s.tr = 1 ∧ 78 ≤ s.bufLen.toNat) → ∃ t : State, exec .decode s = .next t ∧
      t.inp.x = bufRead s.buf 1 ∧ t.inp.y = bufRead s.buf 2 ∧ t.inp.rx = bufRead s.buf 3 ∧ t.inp.ry = bufRead s.buf 4 ∧
      t.inp.z = bufRead s.buf 5 ∧ t.inp.rz = bufRead s.buf 6 ∧ t.inp.seq = bufRead s.buf 7 ∧
      t.inp.buttons = memRead4 s.buf 8 ∧
      (∀ i : Fin 3, t.inp.gyro[i] = memRead2 s.buf (16 + 2 * i.val)) ∧
      (∀ i : Fin 3, t.inp.accel[i] = memRead2 s.buf (22 + 2 * i.val)) ∧
      t.inp.ts = memRead4 s.buf 28 ∧
      (∀ n : Fin 2,
        t.inp.tp[n].id = bufRead s.buf (33 + 4 * n.val) ∧
        t.inp.tp[n].x.toNat =
          (bufRead s.buf (33 + 4 * n.val + 1)).toNat + 256 * ((bufRead s.buf (33 + 4 * n.val + 2)).toNat % 16) ∧
        t.inp.tp[n].y.toNat =
          (bufRead s.buf (33 + 4 * n.val + 2)).toNat / 16 + 16 * (bufRead s.buf (33 + 4 * n.val + 3)).toNat) ∧
      t.inp.status = bufRead s.buf 53 ∧
      t = { s with inp := t.inp, inValid := true, pctValid := false, pct := t.pct }) ∧
    ((s.tr = 0 ∧ s.bufLen.toNat < 64) ∨ (s.tr = 1 ∧ s.bufLen.toNat < 78) →
      exec .decode s = .next (faulted 4 0x30000000 s)) ∧
    (s.tr = 2 ∨ s.tr = 3 → exec .decode s = .next (faulted 5 0x30000000 s))

/-- R175: DECODE writes into every IN register what the EXT of its field gives. -/
def Obligations.DecodeAgreesWithExt : Prop :=
  ∀ s t : State, s.err = 0 → exec .decode s = .next t → t.err = 0 →
    ∀ f ∈ inputFields t.inp, ∃ u : State, exec (.ext f.1 f.2.1) t = .next u ∧ u.err = 0 ∧ u.xdata = f.2.2

/-- R200: BATPCT, floor division, not clamped above 8, the upper nibble without effect. -/
def Obligations.BatpctComputesThePercentage : Prop :=
  encode .batpct = 0x31000000 ∧
  ∀ s : State, s.err = 0 →
    (s.inValid = true → ∃ t : State, exec .batpct s = .next t ∧
      t.pct.toNat = (s.inp.status.toNat % 16) * 100 / 8 ∧ t = { s with pct := t.pct, pctValid := true }) ∧
    (s.inValid = false → exec .batpct s = .next (faulted 8 0x31000000 s))

/-- R205 on USB, with R103, R106, R108 and R109 in their numbers: every byte of the report, the frame, and TXRDY. -/
def Obligations.EncodeOnUsbBuildsTheReport : Prop :=
  encode .encode = 0x32000000 ∧
  ∀ s : State, s.err = 0 → s.tr = 0 → ∃ t : State, exec .encode s = .next t ∧
    bufRead t.buf 0 = 0x02 ∧ HoldsCommand t.buf 1 s ∧
    (∀ x, 48 ≤ x → x < 63 → bufRead t.buf x = 0) ∧
    (∀ x, 63 ≤ x → bufRead t.buf x = bufRead s.buf x) ∧
    t = { s with buf := t.buf, bufLen := 63, formed := true, crcFresh := false } ∧ txReady t = true

/-- R205 on Bluetooth, with R104, R106, R108, R109 and R110 in their numbers: every byte of the report, the checksum, the
frame, TXRDY. -/
def Obligations.EncodeOnBluetoothBuildsTheReport : Prop :=
  ∀ s : State, s.err = 0 → s.tr = 1 → ∃ t : State, exec .encode s = .next t ∧
    bufRead t.buf 0 = 0x31 ∧ bufRead t.buf 1 = s.c[34] ∧ bufRead t.buf 2 = s.c[35] ∧ HoldsCommand t.buf 3 s ∧
    (∀ x, 50 ≤ x → x < 74 → bufRead t.buf x = 0) ∧
    t.crcAcc = crcFeed params 0x39D9F16D (bufBytes t.buf 0 74 ++ [0, 0, 0, 0]) ∧
    t.crcRes = t.crcAcc ^^^ 0xFFFFFFFF ∧
    (∀ i, i < 4 → bufRead t.buf (74 + i) = t.crcRes.extractLsb' (8 * i) 8) ∧
    (∀ x, 78 ≤ x → bufRead t.buf x = bufRead s.buf x) ∧
    t = { s with buf := t.buf, bufLen := 78, crcAcc := t.crcAcc, crcRes := t.crcRes
                 formed := true, crcSeeded := true, resValid := true, crcFresh := true } ∧ txReady t = true

/-- R210, with the offsets of R106 in their numbers: after a successful ENCODE, the EXT of a field's byte gives the register,
or 0 if its group is not populated. -/
def Obligations.EncodedFieldsReadBack : Prop :=
  ∀ (s : State) (b : BitVec 10), ∀ row ∈ reportRows, s.err = 0 →
    (s.tr = 0 ∧ b.toNat = 8 * (1 + row.1)) ∨ (s.tr = 1 ∧ b.toNat = 8 * (3 + row.1)) →
    ∃ t : State, execAll [.encode, .ext b 8] s = .next t ∧ t.err = 0 ∧ t.xdata = (fieldValue s row).setWidth 32

/-- R212: with no group populated and the framing registers 0, the Bluetooth report's checksum is 0xC1FB45CB. -/
def Obligations.EmptyBluetoothReportHasItsChecksum : Prop :=
  ∀ s : State, s.err = 0 → s.tr = 1 → s.grpEn = 0 → s.c[34] = 0 → s.c[35] = 0 →
    ∃ t : State, exec .encode s = .next t ∧ t.crcRes = 0xC1FB45CB ∧
      bufBytes t.buf 0 78 = 0x31 :: List.replicate 73 0 ++ [0xCB, 0x45, 0xFB, 0xC1]

/-! ### Flags -/

/-- R25's table, with R26: the bits of STATUS, and what every operation that succeeds leaves in each flag. -/
def Obligations.FlagsFollowTheStatusTable : Prop :=
  (∀ s : State, (statusByte s).getLsbD 0 = s.inValid ∧ (statusByte s).getLsbD 1 = s.pctValid ∧
    (statusByte s).getLsbD 2 = s.xValid ∧ (statusByte s).getLsbD 3 = s.crcSeeded ∧
    (statusByte s).getLsbD 4 = s.resValid ∧ (statusByte s).getLsbD 5 = s.formed ∧
    (statusByte s).getLsbD 6 = s.crcFresh ∧
    ((statusByte s).getLsbD 7 = true ↔ s.err = 0 ∧ s.formed = true ∧ (s.tr = 0 ∨ (s.tr = 1 ∧ s.crcFresh = true)))) ∧
  (∀ (i : Instr) (s t : State), s.err = 0 → exec i s = .next t → t.err = 0 →
    t.inValid = (match i with | .decode => true | .newcyc => false | _ => s.inValid) ∧
    t.pctValid = (match i with | .batpct => true | .decode | .newcyc => false | _ => s.pctValid) ∧
    t.xValid = (match i with | .ext _ _ => true | .newcyc => false | _ => s.xValid) ∧
    t.crcSeeded = (match i with
      | .crcseed _ | .crcsign _ => true
      | .encode => if s.tr = 1 then true else s.crcSeeded
      | .newcyc => false
      | _ => s.crcSeeded) ∧
    t.resValid = (match i with
      | .crcfin | .crcsign _ => true
      | .encode => if s.tr = 1 then true else s.resValid
      | .crcseed _ | .newcyc => false
      | _ => s.resValid) ∧
    t.formed = (match i with
      | .encode => true
      | .newcyc | .settr _ | .setlen _ | .wrb _ _ | .zfill _ => false
      | _ => s.formed) ∧
    t.crcFresh = (match i with
      | .crcsign _ => true
      | .encode => decide (s.tr = 1)
      | .newcyc | .settr _ | .setlen _ | .wrb _ _ | .zfill _ | .inj _ _ _ | .bset _ _ | .crcput => false
      | _ => s.crcFresh))

/-! ### Rules over all operations -/

/-- R21, R23, R27, R33: C and GRP_EN are written by WRC and CLRCMD, the IN file by DECODE and TR by SETTR, and by no other
operation. For NEWCYC the clause on the IN file is the model's choice (log 11): after it those registers hold no value
(R121, R37), and the model leaves their bits as they were. -/
def Obligations.CommandInputAndTransportHaveTheirWriters : Prop :=
  ∀ (i : Instr) (s t : State), exec i s = .next t →
    (i ≠ .clrcmd → (∀ r v, i ≠ .wrc r v) → t.c = s.c ∧ t.grpEn = s.grpEn) ∧
    (i ≠ .decode → t.inp = s.inp) ∧ ((∀ v, i ≠ .settr v) → t.tr = s.tr)

/-- R245: under any interleaving an instance is where its own steps alone take it. -/
def Obligations.InstancesShareNothing : Prop :=
  ∀ (order : List Nat) (blocks : List State) (j : Nat),
    (interleave order blocks)[j]? = blocks[j]?.map (runSteps (order.count j))

/-- R60 and R28: which operations write BUF and which BUF_LEN. -/
def Obligations.OnlyTheListedOperationsWriteTheBuffer : Prop :=
  ∀ (i : Instr) (s t : State), exec i s = .next t →
    ((match i with
      | .wrb _ _ | .zfill _ | .inj _ _ _ | .bset _ _ | .crcput | .crcsign _ | .encode => false
      | _ => true) = true → t.buf = s.buf) ∧
    ((match i with | .setlen _ | .zfill _ | .encode | .newcyc => false | _ => true) = true → t.bufLen = s.bufLen)

/-- R37: a register whose flag is 0 holds no value: no operation's result and no observation depends on its content. -/
def Obligations.GuardedRegistersHoldNoValue : Prop :=
  ∀ s t : State, SameValues s t →
    (∀ (r : ObsName) (n : Nat), observe r n s = observe r n t) ∧
    (∀ i : Instr, ∃ s' t' : State, exec i s = .next s' ∧ exec i t = .next t' ∧ SameValues s' t')

/-! ### Invariants that every step keeps -/

/-- R28, R35: every step keeps the buffer's canonical form, and keeps BUF_LEN at most 78 and every written byte below 78. -/
def Obligations.StepKeepsTheBufferCanonical : Prop :=
  ∀ s t : State, BufferCanonical s → BufferInRange s → step s = .next t → BufferCanonical t ∧ BufferInRange t

/-- R257, R259: every step keeps "CRC_FRESH = 1 implies that the trailer is the checksum of the present contents". -/
def Obligations.StepKeepsFreshTrailersCurrent : Prop :=
  ∀ s t : State, FreshIsCurrent s → step s = .next t → FreshIsCurrent t

/-- R208: every step keeps "GRP_EN[g] = 0 implies every register of g is 0". -/
def Obligations.StepKeepsUnpopulatedGroupsZero : Prop :=
  ∀ s t : State, UnpopulatedIsZero s → step s = .next t → UnpopulatedIsZero t

/-- R205, R25: every step keeps "FORMED = 1 implies a defined transport and its report length". -/
def Obligations.StepKeepsFormedReportsLength : Prop :=
  ∀ s t : State, FormedHasItsLength s → step s = .next t → FormedHasItsLength t

/-- R33, R196, R37: every step keeps bits 15:12 of the touch coordinates 0 while IN_VALID = 1. -/
def Obligations.StepKeepsTouchIn12Bits : Prop :=
  ∀ s t : State, TouchIn12Bits s → step s = .next t → TouchIn12Bits t

/-- R29, R220: every step keeps ERR at 0, 4, 5, 7 or 8, and ERR_INFO at 0 while ERR = 0. -/
def Obligations.StepKeepsErrRaisable : Prop :=
  ∀ s t : State, ErrIsRaisable s → InfoOnlyWithErr s → step s = .next t → ErrIsRaisable t ∧ InfoOnlyWithErr t

/-- R25: every step keeps "PCT_VALID implies IN_VALID, and RES_VALID implies CRC_SEEDED". -/
def Obligations.StepKeepsFlagsNested : Prop :=
  ∀ s t : State, FlagsNested s → step s = .next t → FlagsNested t

/-- The invariants hold at reset. None rests on a reset value that the model chose. -/
def Obligations.InvariantsHoldAtReset : Prop :=
  BufferCanonical State.reset ∧ BufferInRange State.reset ∧ FreshIsCurrent State.reset ∧ UnpopulatedIsZero State.reset ∧
  FormedHasItsLength State.reset ∧ TouchIn12Bits State.reset ∧ ErrIsRaisable State.reset ∧
  InfoOnlyWithErr State.reset ∧ FlagsNested State.reset

/-- R259: what TXRDY = 1 says in a state with the invariants: the host may transmit all BUF_LEN bytes, they are a report of
TR's length, and on Bluetooth the last four are the checksum of the present contents. -/
def Obligations.ReadyReportIsWhole : Prop :=
  ∀ s : State, FormedHasItsLength s → FreshIsCurrent s → txReady s = true →
    s.err = 0 ∧ transmission s = some (bufBytes s.buf 0 s.bufLen.toNat) ∧
    ((s.tr = 0 ∧ s.bufLen = 63) ∨ (s.tr = 1 ∧ s.bufLen = 78 ∧ TrailerCurrent s))
end

