-- ==== Sys2Proof/Laws/Buffer.lean ====
section
/-! SUPPORT. The buffer's laws: a read after a write, the canonical form, and what each wider operation writes. -/

namespace Sys2Proof.Machine

/-! ### Cells -/

theorem cellsGet_cellsPut (m : Memory) (a x : Nat) (v : Byte) :
    cellsGet (cellsPut m a v) x = if x = a then some v else cellsGet m x := by
  induction m with
  | nil => simp [cellsPut, cellsGet]
  | cons cell m ih =>
    obtain ⟨k, u⟩ := cell
    simp only [cellsPut]
    split
    · simp [cellsGet]
    · split
      · subst_vars; simp only [cellsGet]; split <;> simp_all
      · simp only [cellsGet, ih]; split
        · split
          · omega
          · rfl
        · rfl

theorem rising_mono {m : Memory} {lo hi : Nat} (h : hi ≤ lo) (hm : Memory.rising lo m = true) :
    Memory.rising hi m = true := by
  cases m with
  | nil => rfl
  | cons cell m => simp [Memory.rising] at *; exact ⟨by omega, hm.2⟩

theorem rising_cellsPut {m : Memory} {lo a : Nat} (v : Byte) (ha : lo ≤ a) (hm : Memory.rising lo m = true) :
    Memory.rising lo (cellsPut m a v) = true := by
  induction m generalizing lo with
  | nil => simp [cellsPut, Memory.rising, ha]
  | cons cell m ih =>
    obtain ⟨k, u⟩ := cell
    simp only [Memory.rising, Bool.and_eq_true, decide_eq_true_eq] at hm
    simp only [cellsPut]
    split
    · simp only [Memory.rising, Bool.and_eq_true, decide_eq_true_eq]
      exact ⟨ha, by omega, hm.2⟩
    · split
      · subst_vars; simp only [Memory.rising, Bool.and_eq_true, decide_eq_true_eq]; exact hm
      · simp only [Memory.rising, Bool.and_eq_true, decide_eq_true_eq]
        exact ⟨hm.1, ih (by omega) hm.2⟩

theorem cellsPut_wf {m : Memory} (a : Nat) (v : Byte) (hm : m.wf = true) : (cellsPut m a v).wf = true :=
  rising_cellsPut v (Nat.zero_le a) hm

/-- The bytes listed after a write: the new one, and none that was not there. -/
theorem mem_cellsPut {m : Memory} {a : Nat} {v : Byte} {cell : Host.Cell} (h : cell ∈ cellsPut m a v) :
    cell = (a, v) ∨ cell ∈ m := by
  induction m with
  | nil => simpa [cellsPut] using h
  | cons head m ih =>
    simp only [cellsPut] at h
    split at h
    · simpa using h
    · split at h
      · rcases List.mem_cons.mp h with h | h <;> simp [h]
      · rcases List.mem_cons.mp h with h | h
        · simp [h]
        · rcases ih h with h | h <;> simp [h]

/-! ### One byte -/

/-- Everything a byte write does, seen through reads: the byte at `a`, and nothing else. -/
theorem bufRead_bufWrite (b : Buffer) (a x : Nat) (v : Byte) :
    bufRead (bufWrite b a v) x = if x = a then v else bufRead b x := by
  simp only [bufWrite, bufRead, cellsGet_cellsPut]
  split <;> rfl

theorem bufRead_bufWrite_same (b : Buffer) (a : Nat) (v : Byte) : bufRead (bufWrite b a v) a = v := by
  simp [bufRead_bufWrite]

theorem bufRead_bufWrite_ne (b : Buffer) {a x : Nat} (v : Byte) (h : x ≠ a) :
    bufRead (bufWrite b a v) x = bufRead b x := by simp [bufRead_bufWrite, h]

@[simp] theorem bufWrite_epoch (b : Buffer) (a : Nat) (v : Byte) : (bufWrite b a v).epoch = b.epoch := rfl

@[simp] theorem bufWrite_source (b : Buffer) (a : Nat) (v : Byte) : (bufWrite b a v).source = b.source := rfl

theorem bufWrite_wf {b : Buffer} (a : Nat) (v : Byte) (h : b.cells.wf = true) : (bufWrite b a v).cells.wf = true :=
  cellsPut_wf a v h

/-- No byte at or above n is written. -/
abbrev WrittenBelow (n : Nat) (b : Buffer) : Prop := ∀ cell ∈ b.cells, cell.1 < n

theorem bufWrite_below {b : Buffer} {n a : Nat} (v : Byte) (ha : a < n) (h : WrittenBelow n b) :
    WrittenBelow n (bufWrite b a v) := by
  intro cell hc
  rcases mem_cellsPut hc with rfl | hm
  · exact ha
  · exact h cell hm

/-! ### Folds of writes -/

/-- A fold of operations that each keep the canonical form keeps it. -/
theorem foldl_wf {α : Type} (f : Buffer → α → Buffer) (hf : ∀ b x, b.cells.wf = true → (f b x).cells.wf = true)
    (l : List α) : ∀ b : Buffer, b.cells.wf = true → (l.foldl f b).cells.wf = true := by
  induction l with
  | nil => exact fun b h => h
  | cons x l ih => exact fun b h => ih _ (hf b x h)

theorem bufZero_succ (b : Buffer) (n : Nat) : bufZero b (n + 1) = bufWrite (bufZero b n) n 0 := by
  simp [bufZero, List.range_succ]

/-- A fold of operations that each leave the bytes at or above n unwritten does so. -/
theorem foldl_below {α : Type} {n : Nat} (f : Buffer → α → Buffer) (l : List α)
    (hf : ∀ b, ∀ x ∈ l, WrittenBelow n b → WrittenBelow n (f b x)) :
    ∀ b : Buffer, WrittenBelow n b → WrittenBelow n (l.foldl f b) := by
  induction l with
  | nil => exact fun b h => h
  | cons x l ih =>
    exact fun b h => ih (fun b y hy => hf b y (List.mem_cons_of_mem x hy)) _ (hf b x List.mem_cons_self h)

/-- Zeroing n bytes: the bytes below n, and nothing else (R174, R205). -/
theorem bufRead_bufZero (b : Buffer) (n x : Nat) :
    bufRead (bufZero b n) x = if x < n then 0 else bufRead b x := by
  induction n with
  | zero => simp [bufZero]
  | succ n ih =>
    rw [bufZero_succ, bufRead_bufWrite, ih]
    by_cases h : x = n
    · subst h; simp
    · rw [if_neg h]
      by_cases h2 : x < n
      · rw [if_pos h2, if_pos (by omega)]
      · rw [if_neg h2, if_neg (by omega)]

theorem bufZero_below {b : Buffer} {n m : Nat} (hm : m ≤ n) (h : WrittenBelow n b) : WrittenBelow n (bufZero b m) :=
  foldl_below _ _ (fun _ x hx hb => bufWrite_below 0 (by have := List.mem_range.mp hx; omega) hb) b h

theorem bufZero_wf {b : Buffer} (n : Nat) (h : b.cells.wf = true) : (bufZero b n).cells.wf = true :=
  foldl_wf _ (fun _ _ h => bufWrite_wf _ _ h) _ _ h

@[simp] theorem bufZero_epoch (b : Buffer) (n : Nat) : (bufZero b n).epoch = b.epoch := by
  induction n with
  | zero => rfl
  | succ n ih => rw [bufZero_succ, bufWrite_epoch, ih]

@[simp] theorem bufZero_source (b : Buffer) (n : Nat) : (bufZero b n).source = b.source := by
  induction n with
  | zero => rfl
  | succ n ih => rw [bufZero_succ, bufWrite_source, ih]

/-! ### Four bytes -/

/-- MemWrite(a, 4, v), seen through reads (R53): byte a + i is v[8i+7 : 8i] for i in 0..3, and no other byte changes. -/
theorem bufRead_memWrite4 (b : Buffer) (a : Nat) (v : Word) (x : Nat) :
    bufRead (memWrite4 b a v) x =
      if a ≤ x ∧ x < a + 4 then v.extractLsb' (8 * (x - a)) 8 else bufRead b x := by
  unfold memWrite4
  simp only [bufRead_bufWrite]
  by_cases h3 : x = a + 3
  · subst h3; simp
  by_cases h2 : x = a + 2
  · subst h2; simp
  by_cases h1 : x = a + 1
  · subst h1; simp
  by_cases h0 : x = a
  · subst h0; simp
  have hne : ¬(a ≤ x ∧ x < a + 4) := by omega
  simp [h3, h2, h1, h0, hne]

theorem memWrite4_wf {b : Buffer} (a : Nat) (v : Word) (h : b.cells.wf = true) : (memWrite4 b a v).cells.wf = true :=
  bufWrite_wf _ _ (bufWrite_wf _ _ (bufWrite_wf _ _ (bufWrite_wf _ _ h)))

theorem memWrite4_below {b : Buffer} {n a : Nat} (v : Word) (ha : a + 3 < n) (h : WrittenBelow n b) :
    WrittenBelow n (memWrite4 b a v) :=
  bufWrite_below _ ha (bufWrite_below _ (by omega) (bufWrite_below _ (by omega) (bufWrite_below _ (by omega) h)))

/-- Bit i of MemRead(a, 4) is bit i mod 8 of byte a + i div 8 (R52, R54). -/
theorem getLsbD_memRead4 (b : Buffer) (a : Nat) {i : Nat} (h : i < 32) :
    (memRead4 b a).getLsbD i = (bufRead b (a + i / 8)).getLsbD (i % 8) := by
  unfold memRead4
  change BitVec.getLsbD (w := 8 + (8 + (8 + 8))) _ i = _
  simp only [BitVec.getLsbD_append]
  by_cases h1 : i < 8
  · simp [show i < 8 + (8 + 8) by omega, show i < 8 + 8 by omega, h1, show i / 8 = 0 by omega, show i % 8 = i by omega]
  by_cases h2 : i < 16
  · simp [show i < 8 + (8 + 8) by omega, show i < 8 + 8 by omega, h1, show i / 8 = 1 by omega,
      show i % 8 = i - 8 by omega]
  by_cases h3 : i < 24
  · simp [show i < 8 + (8 + 8) by omega, show ¬i < 8 + 8 by omega, show i / 8 = 2 by omega,
      show i % 8 = i - 16 by omega]
  · simp [show ¬i < 8 + (8 + 8) by omega, show i / 8 = 3 by omega, show i % 8 = i - 24 by omega]

/-- Bit i of MemRead(a, 2) is bit i mod 8 of byte a + i div 8 (R52, R54). -/
theorem getLsbD_memRead2 (b : Buffer) (a : Nat) {i : Nat} (h : i < 16) :
    (memRead2 b a).getLsbD i = (bufRead b (a + i / 8)).getLsbD (i % 8) := by
  unfold memRead2
  change BitVec.getLsbD (w := 8 + 8) _ i = _
  simp only [BitVec.getLsbD_append]
  by_cases h1 : i < 8
  · simp [h1, show i / 8 = 0 by omega, show i % 8 = i by omega]
  · simp [h1, show i / 8 = 1 by omega, show i % 8 = i - 8 by omega]

/-- A four-byte read after a four-byte write of the same place gives the value written. -/
theorem memRead4_memWrite4 (b : Buffer) (a : Nat) (v : Word) : memRead4 (memWrite4 b a v) a = v := by
  apply BitVec.eq_of_getLsbD_eq
  intro i hi
  rw [getLsbD_memRead4 _ _ hi, bufRead_memWrite4 b a v, if_pos (by omega), BitVec.getLsbD_extractLsb']
  simp [show i % 8 < 8 by omega, show a + i / 8 - a = i / 8 by omega, show 8 * (i / 8) + i % 8 = i by omega]

/-! ### Bits -/

theorem getLsbD_byteSetBit (v : Byte) (j : Nat) (x : Bool) (i : Nat) (hi : i < 8) :
    (byteSetBit v j x).getLsbD i = if i = j then x else v.getLsbD i := by
  unfold byteSetBit
  cases x <;> by_cases h : i = j <;> simp [h, hi] <;> omega

/-- Everything a bit write does, seen through the buffer's bits (R54, R56). -/
theorem bufBit_bufSetBit (b : Buffer) (i : Nat) (x : Bool) (j : Nat) :
    bufBit (bufSetBit b i x) j = if j = i then x else bufBit b j := by
  unfold bufSetBit bufBit
  rw [bufRead_bufWrite]
  by_cases hb : j / 8 = i / 8
  · rw [if_pos hb, getLsbD_byteSetBit _ _ _ _ (by omega), hb]
    by_cases hj : j = i
    · simp [hj]
    · rw [if_neg (by omega), if_neg hj]
  · rw [if_neg hb, if_neg (by rintro rfl; exact hb rfl)]

/-- BitWrite(i, n, v) (R56): bit i + j becomes v[j] for j below n, and every other bit keeps its value. -/
theorem bufBit_bitWrite (b : Buffer) (i n : Nat) (v : Byte) (j : Nat) :
    bufBit (bitWrite b i n v) j = if i ≤ j ∧ j < i + n then v.getLsbD (j - i) else bufBit b j := by
  induction n with
  | zero => rw [if_neg (by omega)]; rfl
  | succ n ih =>
    have e : bitWrite b i (n + 1) v = bufSetBit (bitWrite b i n v) (i + n) (v.getLsbD n) := by
      simp [bitWrite, List.range_succ]
    rw [e, bufBit_bufSetBit, ih]
    by_cases hj : j = i + n
    · subst hj; simp
    · rw [if_neg hj]
      by_cases h2 : i ≤ j ∧ j < i + n
      · rw [if_pos h2, if_pos (by omega)]
      · rw [if_neg h2, if_neg (by omega)]

theorem bitWrite_wf {b : Buffer} (i n : Nat) (v : Byte) (h : b.cells.wf = true) :
    (bitWrite b i n v).cells.wf = true :=
  foldl_wf _ (fun _ _ h => bufWrite_wf _ _ h) _ _ h

theorem bitWrite_below {b : Buffer} {m i n : Nat} (v : Byte) (hi : i + n ≤ 8 * m) (h : WrittenBelow m b) :
    WrittenBelow m (bitWrite b i n v) :=
  foldl_below _ _ (fun _ x hx hb => bufWrite_below _ (by have := List.mem_range.mp hx; omega) hb) b h

/-- Bit j of the sum of R55. -/
theorem testBit_bitReadNat (b : Buffer) (i n j : Nat) :
    (bitReadNat b i n).testBit j = (decide (j < n) && bufBit b (i + j)) := by
  induction n generalizing i j with
  | zero => simp [bitReadNat]
  | succ n ih =>
    cases j with
    | zero =>
      simp only [bitReadNat, Nat.testBit_zero]
      cases bufBit b i <;> simp
    | succ j =>
      have e : bitReadNat b i (n + 1) / 2 = bitReadNat b (i + 1) n := by
        simp only [bitReadNat]
        cases bufBit b i <;> (simp; try omega)
      rw [Nat.testBit_succ, e, ih]
      simp [Nat.add_assoc, Nat.add_comm 1 j]

/-- EXT's value, bit by bit (R55, R171): bit j is the buffer's bit i + j for j below n, and 0 above. -/
theorem getLsbD_bitRead (b : Buffer) (i n j : Nat) (h : j < 32) :
    (bitRead b i n).getLsbD j = (decide (j < n) && bufBit b (i + j)) := by
  rw [bitRead, BitVec.getLsbD_ofNat, testBit_bitReadNat]
  simp [h]

/-! ### Runs of bytes -/

@[simp] theorem bufBytes_length (b : Buffer) (a n : Nat) : (bufBytes b a n).length = n := by simp [bufBytes]

/-- A run of bytes is two adjacent runs (R148's corner case). -/
theorem bufBytes_append (b : Buffer) (a m n : Nat) : bufBytes b a (m + n) = bufBytes b a m ++ bufBytes b (a + m) n := by
  simp [bufBytes, List.range_add, Nat.add_assoc]

/-- Two buffers that read the same on a run have the same run. -/
theorem bufBytes_congr {b c : Buffer} {a n : Nat} (h : ∀ x, a ≤ x → x < a + n → bufRead b x = bufRead c x) :
    bufBytes b a n = bufBytes c a n := by
  unfold bufBytes
  apply List.map_congr_left
  intro i hi
  exact h _ (by omega) (by have := List.mem_range.mp hi; omega)

end Sys2Proof.Machine
end

