-- ==== Sys2Proof/Laws/State.lean ====
section
/-! SUPPORT. One lemma a field for each named update of State, so that no proof unfolds one. -/

namespace Sys2Proof.Machine

/-! ### raise -/

@[simp] theorem raise_c (P : Params) (k : ErrKind) (w : Word) (s : State) : (raise P k w s).c = s.c := rfl
@[simp] theorem raise_grpEn (P : Params) (k : ErrKind) (w : Word) (s : State) : (raise P k w s).grpEn = s.grpEn := rfl
@[simp] theorem raise_tr (P : Params) (k : ErrKind) (w : Word) (s : State) : (raise P k w s).tr = s.tr := rfl
@[simp] theorem raise_bufLen (P : Params) (k : ErrKind) (w : Word) (s : State) : (raise P k w s).bufLen = s.bufLen := rfl
@[simp] theorem raise_buf (P : Params) (k : ErrKind) (w : Word) (s : State) : (raise P k w s).buf = s.buf := rfl
@[simp] theorem raise_err (P : Params) (k : ErrKind) (w : Word) (s : State) : (raise P k w s).err = P.errCode k := rfl
@[simp] theorem raise_errInfo (P : Params) (k : ErrKind) (w : Word) (s : State) : (raise P k w s).errInfo = w := rfl
@[simp] theorem raise_crcAcc (P : Params) (k : ErrKind) (w : Word) (s : State) : (raise P k w s).crcAcc = s.crcAcc := rfl
@[simp] theorem raise_crcRes (P : Params) (k : ErrKind) (w : Word) (s : State) : (raise P k w s).crcRes = s.crcRes := rfl
@[simp] theorem raise_xdata (P : Params) (k : ErrKind) (w : Word) (s : State) : (raise P k w s).xdata = s.xdata := rfl
@[simp] theorem raise_pct (P : Params) (k : ErrKind) (w : Word) (s : State) : (raise P k w s).pct = s.pct := rfl
@[simp] theorem raise_inp (P : Params) (k : ErrKind) (w : Word) (s : State) : (raise P k w s).inp = s.inp := rfl
@[simp] theorem raise_inValid (P : Params) (k : ErrKind) (w : Word) (s : State) : (raise P k w s).inValid = s.inValid := rfl
@[simp] theorem raise_pctValid (P : Params) (k : ErrKind) (w : Word) (s : State) : (raise P k w s).pctValid = s.pctValid := rfl
@[simp] theorem raise_xValid (P : Params) (k : ErrKind) (w : Word) (s : State) : (raise P k w s).xValid = s.xValid := rfl
@[simp] theorem raise_crcSeeded (P : Params) (k : ErrKind) (w : Word) (s : State) : (raise P k w s).crcSeeded = s.crcSeeded := rfl
@[simp] theorem raise_resValid (P : Params) (k : ErrKind) (w : Word) (s : State) : (raise P k w s).resValid = s.resValid := rfl
@[simp] theorem raise_formed (P : Params) (k : ErrKind) (w : Word) (s : State) : (raise P k w s).formed = s.formed := rfl
@[simp] theorem raise_crcFresh (P : Params) (k : ErrKind) (w : Word) (s : State) : (raise P k w s).crcFresh = s.crcFresh := rfl
@[simp] theorem raise_host (P : Params) (k : ErrKind) (w : Word) (s : State) : (raise P k w s).host = s.host := rfl

/-! ### newCycle -/

@[simp] theorem newCycle_c (s : State) : (newCycle s).c = s.c := rfl
@[simp] theorem newCycle_grpEn (s : State) : (newCycle s).grpEn = s.grpEn := rfl
@[simp] theorem newCycle_tr (s : State) : (newCycle s).tr = s.tr := rfl
@[simp] theorem newCycle_bufLen (s : State) : (newCycle s).bufLen = 0 := rfl
@[simp] theorem newCycle_buf (s : State) : (newCycle s).buf = s.buf := rfl
@[simp] theorem newCycle_err (s : State) : (newCycle s).err = 0 := rfl
@[simp] theorem newCycle_errInfo (s : State) : (newCycle s).errInfo = 0 := rfl
@[simp] theorem newCycle_crcAcc (s : State) : (newCycle s).crcAcc = s.crcAcc := rfl
@[simp] theorem newCycle_crcRes (s : State) : (newCycle s).crcRes = s.crcRes := rfl
@[simp] theorem newCycle_xdata (s : State) : (newCycle s).xdata = s.xdata := rfl
@[simp] theorem newCycle_pct (s : State) : (newCycle s).pct = s.pct := rfl
@[simp] theorem newCycle_inp (s : State) : (newCycle s).inp = s.inp := rfl
@[simp] theorem newCycle_inValid (s : State) : (newCycle s).inValid = false := rfl
@[simp] theorem newCycle_pctValid (s : State) : (newCycle s).pctValid = false := rfl
@[simp] theorem newCycle_xValid (s : State) : (newCycle s).xValid = false := rfl
@[simp] theorem newCycle_crcSeeded (s : State) : (newCycle s).crcSeeded = false := rfl
@[simp] theorem newCycle_resValid (s : State) : (newCycle s).resValid = false := rfl
@[simp] theorem newCycle_formed (s : State) : (newCycle s).formed = false := rfl
@[simp] theorem newCycle_crcFresh (s : State) : (newCycle s).crcFresh = false := rfl
@[simp] theorem newCycle_host (s : State) : (newCycle s).host = s.host := rfl

/-! ### sign -/

@[simp] theorem sign_c (P : Params) (k : BitVec 2) (s : State) : (sign P k s).c = s.c := rfl
@[simp] theorem sign_grpEn (P : Params) (k : BitVec 2) (s : State) : (sign P k s).grpEn = s.grpEn := rfl
@[simp] theorem sign_tr (P : Params) (k : BitVec 2) (s : State) : (sign P k s).tr = s.tr := rfl
@[simp] theorem sign_bufLen (P : Params) (k : BitVec 2) (s : State) : (sign P k s).bufLen = s.bufLen := rfl
@[simp] theorem sign_buf (P : Params) (k : BitVec 2) (s : State) : (sign P k s).buf = memWrite4 (zeroTrailer s.buf s.bufLen.toNat) (s.bufLen.toNat - 4)
      (signRes P k s.buf s.bufLen.toNat) := rfl
@[simp] theorem sign_err (P : Params) (k : BitVec 2) (s : State) : (sign P k s).err = s.err := rfl
@[simp] theorem sign_errInfo (P : Params) (k : BitVec 2) (s : State) : (sign P k s).errInfo = s.errInfo := rfl
@[simp] theorem sign_crcAcc (P : Params) (k : BitVec 2) (s : State) : (sign P k s).crcAcc = signAcc P k s.buf s.bufLen.toNat := rfl
@[simp] theorem sign_crcRes (P : Params) (k : BitVec 2) (s : State) : (sign P k s).crcRes = signRes P k s.buf s.bufLen.toNat := rfl
@[simp] theorem sign_xdata (P : Params) (k : BitVec 2) (s : State) : (sign P k s).xdata = s.xdata := rfl
@[simp] theorem sign_pct (P : Params) (k : BitVec 2) (s : State) : (sign P k s).pct = s.pct := rfl
@[simp] theorem sign_inp (P : Params) (k : BitVec 2) (s : State) : (sign P k s).inp = s.inp := rfl
@[simp] theorem sign_inValid (P : Params) (k : BitVec 2) (s : State) : (sign P k s).inValid = s.inValid := rfl
@[simp] theorem sign_pctValid (P : Params) (k : BitVec 2) (s : State) : (sign P k s).pctValid = s.pctValid := rfl
@[simp] theorem sign_xValid (P : Params) (k : BitVec 2) (s : State) : (sign P k s).xValid = s.xValid := rfl
@[simp] theorem sign_crcSeeded (P : Params) (k : BitVec 2) (s : State) : (sign P k s).crcSeeded = true := rfl
@[simp] theorem sign_resValid (P : Params) (k : BitVec 2) (s : State) : (sign P k s).resValid = true := rfl
@[simp] theorem sign_formed (P : Params) (k : BitVec 2) (s : State) : (sign P k s).formed = s.formed := rfl
@[simp] theorem sign_crcFresh (P : Params) (k : BitVec 2) (s : State) : (sign P k s).crcFresh = true := rfl
@[simp] theorem sign_host (P : Params) (k : BitVec 2) (s : State) : (sign P k s).host = s.host := rfl

/-! ### decodeEffect -/

@[simp] theorem decodeEffect_c (P : Params) (L : Layout) (s : State) : (decodeEffect P L s).c = s.c := rfl
@[simp] theorem decodeEffect_grpEn (P : Params) (L : Layout) (s : State) : (decodeEffect P L s).grpEn = s.grpEn := rfl
@[simp] theorem decodeEffect_tr (P : Params) (L : Layout) (s : State) : (decodeEffect P L s).tr = s.tr := rfl
@[simp] theorem decodeEffect_bufLen (P : Params) (L : Layout) (s : State) : (decodeEffect P L s).bufLen = s.bufLen := rfl
@[simp] theorem decodeEffect_buf (P : Params) (L : Layout) (s : State) : (decodeEffect P L s).buf = s.buf := rfl
@[simp] theorem decodeEffect_err (P : Params) (L : Layout) (s : State) : (decodeEffect P L s).err = s.err := rfl
@[simp] theorem decodeEffect_errInfo (P : Params) (L : Layout) (s : State) : (decodeEffect P L s).errInfo = s.errInfo := rfl
@[simp] theorem decodeEffect_crcAcc (P : Params) (L : Layout) (s : State) : (decodeEffect P L s).crcAcc = s.crcAcc := rfl
@[simp] theorem decodeEffect_crcRes (P : Params) (L : Layout) (s : State) : (decodeEffect P L s).crcRes = s.crcRes := rfl
@[simp] theorem decodeEffect_xdata (P : Params) (L : Layout) (s : State) : (decodeEffect P L s).xdata = s.xdata := rfl
@[simp] theorem decodeEffect_pct (P : Params) (L : Layout) (s : State) : (decodeEffect P L s).pct = s.pct := rfl
@[simp] theorem decodeEffect_inp (P : Params) (L : Layout) (s : State) : (decodeEffect P L s).inp = decodeInput P L.inBase s.buf := rfl
@[simp] theorem decodeEffect_inValid (P : Params) (L : Layout) (s : State) : (decodeEffect P L s).inValid = true := rfl
@[simp] theorem decodeEffect_pctValid (P : Params) (L : Layout) (s : State) : (decodeEffect P L s).pctValid = false := rfl
@[simp] theorem decodeEffect_xValid (P : Params) (L : Layout) (s : State) : (decodeEffect P L s).xValid = s.xValid := rfl
@[simp] theorem decodeEffect_crcSeeded (P : Params) (L : Layout) (s : State) : (decodeEffect P L s).crcSeeded = s.crcSeeded := rfl
@[simp] theorem decodeEffect_resValid (P : Params) (L : Layout) (s : State) : (decodeEffect P L s).resValid = s.resValid := rfl
@[simp] theorem decodeEffect_formed (P : Params) (L : Layout) (s : State) : (decodeEffect P L s).formed = s.formed := rfl
@[simp] theorem decodeEffect_crcFresh (P : Params) (L : Layout) (s : State) : (decodeEffect P L s).crcFresh = s.crcFresh := rfl
@[simp] theorem decodeEffect_host (P : Params) (L : Layout) (s : State) : (decodeEffect P L s).host = s.host := rfl

/-! ### advance -/

@[simp] theorem advance_c (rest : List HostEvent) (s : State) : (advance rest s).c = s.c := rfl
@[simp] theorem advance_grpEn (rest : List HostEvent) (s : State) : (advance rest s).grpEn = s.grpEn := rfl
@[simp] theorem advance_tr (rest : List HostEvent) (s : State) : (advance rest s).tr = s.tr := rfl
@[simp] theorem advance_bufLen (rest : List HostEvent) (s : State) : (advance rest s).bufLen = s.bufLen := rfl
@[simp] theorem advance_buf (rest : List HostEvent) (s : State) : (advance rest s).buf = s.buf := rfl
@[simp] theorem advance_err (rest : List HostEvent) (s : State) : (advance rest s).err = s.err := rfl
@[simp] theorem advance_errInfo (rest : List HostEvent) (s : State) : (advance rest s).errInfo = s.errInfo := rfl
@[simp] theorem advance_crcAcc (rest : List HostEvent) (s : State) : (advance rest s).crcAcc = s.crcAcc := rfl
@[simp] theorem advance_crcRes (rest : List HostEvent) (s : State) : (advance rest s).crcRes = s.crcRes := rfl
@[simp] theorem advance_xdata (rest : List HostEvent) (s : State) : (advance rest s).xdata = s.xdata := rfl
@[simp] theorem advance_pct (rest : List HostEvent) (s : State) : (advance rest s).pct = s.pct := rfl
@[simp] theorem advance_inp (rest : List HostEvent) (s : State) : (advance rest s).inp = s.inp := rfl
@[simp] theorem advance_inValid (rest : List HostEvent) (s : State) : (advance rest s).inValid = s.inValid := rfl
@[simp] theorem advance_pctValid (rest : List HostEvent) (s : State) : (advance rest s).pctValid = s.pctValid := rfl
@[simp] theorem advance_xValid (rest : List HostEvent) (s : State) : (advance rest s).xValid = s.xValid := rfl
@[simp] theorem advance_crcSeeded (rest : List HostEvent) (s : State) : (advance rest s).crcSeeded = s.crcSeeded := rfl
@[simp] theorem advance_resValid (rest : List HostEvent) (s : State) : (advance rest s).resValid = s.resValid := rfl
@[simp] theorem advance_formed (rest : List HostEvent) (s : State) : (advance rest s).formed = s.formed := rfl
@[simp] theorem advance_crcFresh (rest : List HostEvent) (s : State) : (advance rest s).crcFresh = s.crcFresh := rfl
@[simp] theorem advance_host (rest : List HostEvent) (s : State) : (advance rest s).host = { s.host with script := rest } := rfl

/-! ### hand -/

@[simp] theorem hand_c (v : Word) (s : State) : (hand v s).c = s.c := rfl
@[simp] theorem hand_grpEn (v : Word) (s : State) : (hand v s).grpEn = s.grpEn := rfl
@[simp] theorem hand_tr (v : Word) (s : State) : (hand v s).tr = s.tr := rfl
@[simp] theorem hand_bufLen (v : Word) (s : State) : (hand v s).bufLen = s.bufLen := rfl
@[simp] theorem hand_buf (v : Word) (s : State) : (hand v s).buf = s.buf := rfl
@[simp] theorem hand_err (v : Word) (s : State) : (hand v s).err = s.err := rfl
@[simp] theorem hand_errInfo (v : Word) (s : State) : (hand v s).errInfo = s.errInfo := rfl
@[simp] theorem hand_crcAcc (v : Word) (s : State) : (hand v s).crcAcc = s.crcAcc := rfl
@[simp] theorem hand_crcRes (v : Word) (s : State) : (hand v s).crcRes = s.crcRes := rfl
@[simp] theorem hand_xdata (v : Word) (s : State) : (hand v s).xdata = s.xdata := rfl
@[simp] theorem hand_pct (v : Word) (s : State) : (hand v s).pct = s.pct := rfl
@[simp] theorem hand_inp (v : Word) (s : State) : (hand v s).inp = s.inp := rfl
@[simp] theorem hand_inValid (v : Word) (s : State) : (hand v s).inValid = s.inValid := rfl
@[simp] theorem hand_pctValid (v : Word) (s : State) : (hand v s).pctValid = s.pctValid := rfl
@[simp] theorem hand_xValid (v : Word) (s : State) : (hand v s).xValid = s.xValid := rfl
@[simp] theorem hand_crcSeeded (v : Word) (s : State) : (hand v s).crcSeeded = s.crcSeeded := rfl
@[simp] theorem hand_resValid (v : Word) (s : State) : (hand v s).resValid = s.resValid := rfl
@[simp] theorem hand_formed (v : Word) (s : State) : (hand v s).formed = s.formed := rfl
@[simp] theorem hand_crcFresh (v : Word) (s : State) : (hand v s).crcFresh = s.crcFresh := rfl
@[simp] theorem hand_host (v : Word) (s : State) : (hand v s).host = { s.host with reads := s.host.reads + 1, saw := v } := rfl

/-! ### observeEvent -/

@[simp] theorem observeEvent_c (r : ObsName) (s : State) : (observeEvent r s).c = s.c := rfl
@[simp] theorem observeEvent_grpEn (r : ObsName) (s : State) : (observeEvent r s).grpEn = s.grpEn := rfl
@[simp] theorem observeEvent_tr (r : ObsName) (s : State) : (observeEvent r s).tr = s.tr := rfl
@[simp] theorem observeEvent_bufLen (r : ObsName) (s : State) : (observeEvent r s).bufLen = s.bufLen := rfl
@[simp] theorem observeEvent_buf (r : ObsName) (s : State) : (observeEvent r s).buf = s.buf := rfl
@[simp] theorem observeEvent_err (r : ObsName) (s : State) : (observeEvent r s).err = s.err := rfl
@[simp] theorem observeEvent_errInfo (r : ObsName) (s : State) : (observeEvent r s).errInfo = s.errInfo := rfl
@[simp] theorem observeEvent_crcAcc (r : ObsName) (s : State) : (observeEvent r s).crcAcc = s.crcAcc := rfl
@[simp] theorem observeEvent_crcRes (r : ObsName) (s : State) : (observeEvent r s).crcRes = s.crcRes := rfl
@[simp] theorem observeEvent_xdata (r : ObsName) (s : State) : (observeEvent r s).xdata = s.xdata := rfl
@[simp] theorem observeEvent_pct (r : ObsName) (s : State) : (observeEvent r s).pct = s.pct := rfl
@[simp] theorem observeEvent_inp (r : ObsName) (s : State) : (observeEvent r s).inp = s.inp := rfl
@[simp] theorem observeEvent_inValid (r : ObsName) (s : State) : (observeEvent r s).inValid = s.inValid := rfl
@[simp] theorem observeEvent_pctValid (r : ObsName) (s : State) : (observeEvent r s).pctValid = s.pctValid := rfl
@[simp] theorem observeEvent_xValid (r : ObsName) (s : State) : (observeEvent r s).xValid = s.xValid := rfl
@[simp] theorem observeEvent_crcSeeded (r : ObsName) (s : State) : (observeEvent r s).crcSeeded = s.crcSeeded := rfl
@[simp] theorem observeEvent_resValid (r : ObsName) (s : State) : (observeEvent r s).resValid = s.resValid := rfl
@[simp] theorem observeEvent_formed (r : ObsName) (s : State) : (observeEvent r s).formed = s.formed := rfl
@[simp] theorem observeEvent_crcFresh (r : ObsName) (s : State) : (observeEvent r s).crcFresh = s.crcFresh := rfl
@[simp] theorem observeEvent_host (r : ObsName) (s : State) : (observeEvent r s).host = { s.host with reads := s.host.reads + 1, saw := observe r s.host.reads s } := rfl

/-! ### issueNext -/

@[simp] theorem issueNext_c (w : Word) (s : State) : (issueNext w s).c = s.c := rfl
@[simp] theorem issueNext_grpEn (w : Word) (s : State) : (issueNext w s).grpEn = s.grpEn := rfl
@[simp] theorem issueNext_tr (w : Word) (s : State) : (issueNext w s).tr = s.tr := rfl
@[simp] theorem issueNext_bufLen (w : Word) (s : State) : (issueNext w s).bufLen = s.bufLen := rfl
@[simp] theorem issueNext_buf (w : Word) (s : State) : (issueNext w s).buf = s.buf := rfl
@[simp] theorem issueNext_err (w : Word) (s : State) : (issueNext w s).err = s.err := rfl
@[simp] theorem issueNext_errInfo (w : Word) (s : State) : (issueNext w s).errInfo = s.errInfo := rfl
@[simp] theorem issueNext_crcAcc (w : Word) (s : State) : (issueNext w s).crcAcc = s.crcAcc := rfl
@[simp] theorem issueNext_crcRes (w : Word) (s : State) : (issueNext w s).crcRes = s.crcRes := rfl
@[simp] theorem issueNext_xdata (w : Word) (s : State) : (issueNext w s).xdata = s.xdata := rfl
@[simp] theorem issueNext_pct (w : Word) (s : State) : (issueNext w s).pct = s.pct := rfl
@[simp] theorem issueNext_inp (w : Word) (s : State) : (issueNext w s).inp = s.inp := rfl
@[simp] theorem issueNext_inValid (w : Word) (s : State) : (issueNext w s).inValid = s.inValid := rfl
@[simp] theorem issueNext_pctValid (w : Word) (s : State) : (issueNext w s).pctValid = s.pctValid := rfl
@[simp] theorem issueNext_xValid (w : Word) (s : State) : (issueNext w s).xValid = s.xValid := rfl
@[simp] theorem issueNext_crcSeeded (w : Word) (s : State) : (issueNext w s).crcSeeded = s.crcSeeded := rfl
@[simp] theorem issueNext_resValid (w : Word) (s : State) : (issueNext w s).resValid = s.resValid := rfl
@[simp] theorem issueNext_formed (w : Word) (s : State) : (issueNext w s).formed = s.formed := rfl
@[simp] theorem issueNext_crcFresh (w : Word) (s : State) : (issueNext w s).crcFresh = s.crcFresh := rfl
@[simp] theorem issueNext_host (w : Word) (s : State) : (issueNext w s).host = { s.host with script := .command w :: s.host.script } := rfl

/-! ### resetEvent -/

@[simp] theorem resetEvent_c (s : State) : (resetEvent s).c = State.reset.c := rfl
@[simp] theorem resetEvent_grpEn (s : State) : (resetEvent s).grpEn = State.reset.grpEn := rfl
@[simp] theorem resetEvent_tr (s : State) : (resetEvent s).tr = State.reset.tr := rfl
@[simp] theorem resetEvent_bufLen (s : State) : (resetEvent s).bufLen = State.reset.bufLen := rfl
@[simp] theorem resetEvent_buf (s : State) : (resetEvent s).buf = ⟨[], s.buf.epoch + 1, s.buf.source⟩ := rfl
@[simp] theorem resetEvent_err (s : State) : (resetEvent s).err = State.reset.err := rfl
@[simp] theorem resetEvent_errInfo (s : State) : (resetEvent s).errInfo = State.reset.errInfo := rfl
@[simp] theorem resetEvent_crcAcc (s : State) : (resetEvent s).crcAcc = State.reset.crcAcc := rfl
@[simp] theorem resetEvent_crcRes (s : State) : (resetEvent s).crcRes = State.reset.crcRes := rfl
@[simp] theorem resetEvent_xdata (s : State) : (resetEvent s).xdata = State.reset.xdata := rfl
@[simp] theorem resetEvent_pct (s : State) : (resetEvent s).pct = State.reset.pct := rfl
@[simp] theorem resetEvent_inp (s : State) : (resetEvent s).inp = State.reset.inp := rfl
@[simp] theorem resetEvent_inValid (s : State) : (resetEvent s).inValid = State.reset.inValid := rfl
@[simp] theorem resetEvent_pctValid (s : State) : (resetEvent s).pctValid = State.reset.pctValid := rfl
@[simp] theorem resetEvent_xValid (s : State) : (resetEvent s).xValid = State.reset.xValid := rfl
@[simp] theorem resetEvent_crcSeeded (s : State) : (resetEvent s).crcSeeded = State.reset.crcSeeded := rfl
@[simp] theorem resetEvent_resValid (s : State) : (resetEvent s).resValid = State.reset.resValid := rfl
@[simp] theorem resetEvent_formed (s : State) : (resetEvent s).formed = State.reset.formed := rfl
@[simp] theorem resetEvent_crcFresh (s : State) : (resetEvent s).crcFresh = State.reset.crcFresh := rfl
@[simp] theorem resetEvent_host (s : State) : (resetEvent s).host = s.host := rfl

/-! ### encodeEffect: what does not depend on the checksum -/

@[simp] theorem encodeEffect_c (P : Params) (L : Layout) (s : State) : (encodeEffect P L s).c = s.c := by
  unfold encodeEffect; split <;> rfl
@[simp] theorem encodeEffect_grpEn (P : Params) (L : Layout) (s : State) : (encodeEffect P L s).grpEn = s.grpEn := by
  unfold encodeEffect; split <;> rfl
@[simp] theorem encodeEffect_tr (P : Params) (L : Layout) (s : State) : (encodeEffect P L s).tr = s.tr := by
  unfold encodeEffect; split <;> rfl
@[simp] theorem encodeEffect_bufLen (P : Params) (L : Layout) (s : State) : (encodeEffect P L s).bufLen = L.outLen := by
  unfold encodeEffect; split <;> rfl
@[simp] theorem encodeEffect_err (P : Params) (L : Layout) (s : State) : (encodeEffect P L s).err = s.err := by
  unfold encodeEffect; split <;> rfl
@[simp] theorem encodeEffect_errInfo (P : Params) (L : Layout) (s : State) : (encodeEffect P L s).errInfo = s.errInfo := by
  unfold encodeEffect; split <;> rfl
@[simp] theorem encodeEffect_xdata (P : Params) (L : Layout) (s : State) : (encodeEffect P L s).xdata = s.xdata := by
  unfold encodeEffect; split <;> rfl
@[simp] theorem encodeEffect_pct (P : Params) (L : Layout) (s : State) : (encodeEffect P L s).pct = s.pct := by
  unfold encodeEffect; split <;> rfl
@[simp] theorem encodeEffect_inp (P : Params) (L : Layout) (s : State) : (encodeEffect P L s).inp = s.inp := by
  unfold encodeEffect; split <;> rfl
@[simp] theorem encodeEffect_inValid (P : Params) (L : Layout) (s : State) : (encodeEffect P L s).inValid = s.inValid := by
  unfold encodeEffect; split <;> rfl
@[simp] theorem encodeEffect_pctValid (P : Params) (L : Layout) (s : State) : (encodeEffect P L s).pctValid = s.pctValid := by
  unfold encodeEffect; split <;> rfl
@[simp] theorem encodeEffect_xValid (P : Params) (L : Layout) (s : State) : (encodeEffect P L s).xValid = s.xValid := by
  unfold encodeEffect; split <;> rfl
@[simp] theorem encodeEffect_formed (P : Params) (L : Layout) (s : State) : (encodeEffect P L s).formed = true := by
  unfold encodeEffect; split <;> rfl
@[simp] theorem encodeEffect_host (P : Params) (L : Layout) (s : State) : (encodeEffect P L s).host = s.host := by
  unfold encodeEffect; split <;> rfl

/-- The reset memory is in its canonical form. -/
theorem reset_bufferCanonical : State.reset.buf.cells.wf = true := rfl

end Sys2Proof.Machine
end

