-- ==== Sys2Proof/Machine/Configured.lean ====
section
/-! DEFINITION. The whole block under any configuration record (R7, R9): what `exec`, `issue` and `step` are when the
record is the spec's. -/

namespace Sys2Proof.Machine

/-- One operation under a configuration record. -/
def execWith (P : Params) (i : Instr) (s : State) : Result :=
  match i with
  | .newcyc => .next (newCycle s)
  | .clrcmd => runClrcmd P s
  | .settr t => runSettr P t s
  | .setlen n => runSetlen P n s
  | .wrb a imm => runWrb P a imm s
  | .wrc r imm => runWrc P r imm s
  | .crcseed k => runCrcseed P k s
  | .crcbyte imm => runCrcbyte P imm s
  | .crcfeed a n => runCrcfeed P a n s
  | .crcfin => runCrcfin P s
  | .crcput => runCrcput P s
  | .crcsign k => runCrcsign P k s
  | .ext boff len => runExt P boff len s
  | .inj boff len imm => runInj P boff len imm s
  | .bset a mask => runBset P a mask s
  | .zfill n => runZfill P n s
  | .decode => runDecode P s
  | .batpct => runBatpct P s
  | .encode => runEncode P s

/-- One command word under a configuration record (R120). -/
def issueWith (P : Params) (w : Word) (s : State) : Result := issueBy P (execWith P) w s

/-- One event of the host under a configuration record. -/
def stepWith (P : Params) (s : State) : Result := serveBy (issueWith P) (observeWith P) s

end Sys2Proof.Machine
end

