-- ==== Sys2Proof/Laws/Operations.lean ====
section
/-! SUPPORT. One lemma for each shared operation, which says once everything it can do: `perform`, `exec`, `issue`,
`serve`, `step`, the checksum, the layouts, the groups. -/

namespace Sys2Proof.Machine

/-! ### Checks -/

theorem firstFailing_eq_none {l : List (Bool × ErrKind)} :
    firstFailing l = none ↔ ∀ c ∈ l, c.1 = true := by
  induction l with
  | nil => simp [firstFailing]
  | cons c l ih =>
    obtain ⟨b, k⟩ := c
    cases b <;> simp [firstFailing, ih]

/-- The kind raised is that of a check that fails, and every check before it holds (R224). -/
theorem firstFailing_eq_some {l : List (Bool × ErrKind)} {k : ErrKind} :
    firstFailing l = some k ↔ ∃ pre post, l = pre ++ (false, k) :: post ∧ ∀ c ∈ pre, c.1 = true := by
  induction l with
  | nil => simp [firstFailing]
  | cons c l ih =>
    obtain ⟨b, k'⟩ := c
    cases b
    · simp only [firstFailing, Bool.false_eq_true, if_false, Option.some.injEq]
      constructor
      · rintro rfl; exact ⟨[], l, rfl, by simp⟩
      · rintro ⟨pre, post, he, hp⟩
        cases pre with
        | nil => simpa using (List.cons.inj he).1
        | cons c pre =>
          have := hp c (by simp)
          have h2 := (List.cons.inj he).1
          rw [← h2] at this; simp at this
    · simp only [firstFailing, if_true, ih]
      constructor
      · rintro ⟨pre, post, rfl, hp⟩
        exact ⟨(true, k') :: pre, post, rfl, by simpa using hp⟩
      · rintro ⟨pre, post, he, hp⟩
        cases pre with
        | nil => simp at he
        | cons c pre =>
          exact ⟨pre, post, (List.cons.inj he).2, fun d hd => hp d (by simp [hd])⟩

/-! ### perform (R120) -/

/-- R227: in lockout nothing changes. -/
theorem perform_locked {s : State} (h : s.err ≠ 0) (P : Params) (i : Instr) (checks : List (Bool × ErrKind))
    (effect : State → State) : perform P i checks effect s = .next s := if_pos h

/-- R79, R224: an operand out of its range is the first error. -/
theorem perform_illegal {P : Params} {s : State} {i : Instr} (h : s.err = 0) (hw : inRange P i = false)
    (checks : List (Bool × ErrKind)) (effect : State → State) :
    perform P i checks effect s = .next (raise P .illegalCommand (encodeWith P i) s) := by
  simp [perform, h, firstFailing, hw]

/-- R120: with the operands in range, the first of the operation's own checks that fails raises. -/
theorem perform_raises {P : Params} {s : State} {i : Instr} {checks : List (Bool × ErrKind)} {k : ErrKind}
    (h : s.err = 0) (hw : inRange P i = true) (hc : firstFailing checks = some k) (effect : State → State) :
    perform P i checks effect s = .next (raise P k (encodeWith P i) s) := by
  simp [perform, h, firstFailing, hw, hc]

/-- R120: with every check met, the effect takes place. -/
theorem perform_completes {P : Params} {s : State} {i : Instr} {checks : List (Bool × ErrKind)} (h : s.err = 0)
    (hw : inRange P i = true) (hc : ∀ c ∈ checks, c.1 = true) (effect : State → State) :
    perform P i checks effect s = .next (effect s) := by
  simp [perform, h, firstFailing, hw, firstFailing_eq_none.mpr hc]

/-- Everything `perform` can do. -/
theorem perform_cases (P : Params) (i : Instr) (checks : List (Bool × ErrKind)) (effect : State → State) (s : State) :
    (s.err ≠ 0 ∧ perform P i checks effect s = .next s) ∨
    (s.err = 0 ∧ ∃ k, firstFailing ((inRange P i, .illegalCommand) :: checks) = some k ∧
      perform P i checks effect s = .next (raise P k (encodeWith P i) s)) ∨
    (s.err = 0 ∧ inRange P i = true ∧ (∀ c ∈ checks, c.1 = true) ∧
      perform P i checks effect s = .next (effect s)) := by
  by_cases h : s.err = 0
  · cases hf : firstFailing ((inRange P i, .illegalCommand) :: checks) with
    | some k => exact .inr (.inl ⟨h, k, rfl, by simp [perform, h, hf]⟩)
    | none =>
      have := firstFailing_eq_none.mp hf
      exact .inr (.inr ⟨h, this (_, _) List.mem_cons_self, fun c hc => this c (by simp [hc]), by simp [perform, h, hf]⟩)
  · exact .inl ⟨h, perform_locked h ..⟩

/-! ### exec, issue, serve -/

/-- A shared operation's outcome carries a property: the shape of every proof that all operations keep one. It is enough
that lockout, fault entry and the effect each have it. -/
theorem perform_keeps {P : Params} {Q : State → Prop} {i : Instr} {checks : List (Bool × ErrKind)}
    {effect : State → State} {s t : State} (h : perform P i checks effect s = .next t) (hs : Q s)
    (hr : ∀ k w, Q s → Q (raise P k w s))
    (he : s.err = 0 → inRange P i = true → (∀ c ∈ checks, c.1 = true) → Q (effect s)) : Q t := by
  rcases perform_cases P i checks effect s with ⟨-, e⟩ | ⟨-, k, -, e⟩ | ⟨h0, hw, hc, e⟩ <;> rw [e] at h <;> cases h
  · exact hs
  · exact hr _ _ hs
  · exact he h0 hw hc

/-- The spec's record makes the parametrised operation the fixed one (R7, R9). -/
theorem execWith_params (i : Instr) (s : State) : execWith params i s = exec i s := by cases i <;> rfl

theorem issueWith_params (w : Word) (s : State) : issueWith params w s = issue w s := by
  unfold issueWith issue
  rw [funext fun i => funext (execWith_params i)]

theorem stepWith_params (s : State) : stepWith params s = step s := by
  unfold stepWith step serve
  rw [funext fun w => funext (issueWith_params w)]
  rfl

/-- Every operation but NEWCYC is one use of `perform`, and its effect leaves the host's side alone. -/
theorem execWith_is_perform (P : Params) {i : Instr} (h : i ≠ .newcyc) (s : State) :
    ∃ (checks : List (Bool × ErrKind)) (effect : State → State),
      execWith P i s = perform P i checks effect s ∧ (effect s).host = s.host := by
  cases i
  case newcyc => exact absurd rfl h
  case decode =>
    refine ⟨_, _, by rw [execWith, runDecode], ?_⟩
    cases layoutOf P s.tr <;> simp
  case encode =>
    refine ⟨_, _, by rw [execWith, runEncode], ?_⟩
    cases layoutOf P s.tr <;> simp
  case clrcmd => exact ⟨_, _, by rw [execWith, runClrcmd], rfl⟩
  case settr => exact ⟨_, _, by rw [execWith, runSettr], rfl⟩
  case setlen => exact ⟨_, _, by rw [execWith, runSetlen], rfl⟩
  case wrb => exact ⟨_, _, by rw [execWith, runWrb], rfl⟩
  case wrc => exact ⟨_, _, by rw [execWith, runWrc], rfl⟩
  case crcseed => exact ⟨_, _, by rw [execWith, runCrcseed], rfl⟩
  case crcbyte => exact ⟨_, _, by rw [execWith, runCrcbyte], rfl⟩
  case crcfeed => exact ⟨_, _, by rw [execWith, runCrcfeed], rfl⟩
  case crcfin => exact ⟨_, _, by rw [execWith, runCrcfin], rfl⟩
  case crcput => exact ⟨_, _, by rw [execWith, runCrcput], rfl⟩
  case crcsign => exact ⟨_, _, by rw [execWith, runCrcsign], rfl⟩
  case ext => exact ⟨_, _, by rw [execWith, runExt], rfl⟩
  case inj => exact ⟨_, _, by rw [execWith, runInj], rfl⟩
  case bset => exact ⟨_, _, by rw [execWith, runBset], rfl⟩
  case zfill => exact ⟨_, _, by rw [execWith, runZfill], rfl⟩
  case batpct => exact ⟨_, _, by rw [execWith, runBatpct], rfl⟩

/-- The same of `exec`. -/
theorem exec_is_perform {i : Instr} (h : i ≠ .newcyc) (s : State) :
    ∃ (checks : List (Bool × ErrKind)) (effect : State → State),
      exec i s = perform params i checks effect s ∧ (effect s).host = s.host :=
  execWith_params i s ▸ execWith_is_perform params h s

/-- R227: in lockout every operation but NEWCYC is ignored. -/
theorem exec_locked {i : Instr} {s : State} (h : i ≠ .newcyc) (h0 : s.err ≠ 0) : exec i s = .next s := by
  obtain ⟨c, e, he, -⟩ := exec_is_perform h s
  rw [he, perform_locked h0]

/-- R24: every operation answers with a next state, in which the host's side is as before. -/
theorem exec_next (i : Instr) (s : State) : ∃ t, exec i s = .next t ∧ t.host = s.host := by
  by_cases h : i = .newcyc
  · subst h; exact ⟨_, rfl, rfl⟩
  · obtain ⟨c, e, he, hh⟩ := exec_is_perform h s
    rcases perform_cases params i c e s with ⟨-, hp⟩ | ⟨-, k, -, hp⟩ | ⟨-, -, -, hp⟩ <;> rw [hp] at he
    · exact ⟨_, he, rfl⟩
    · exact ⟨_, he, rfl⟩
    · exact ⟨_, he, hh⟩

/-- R120: a legal word is its operation. -/
theorem issue_of_ok {w : Word} {i : Instr} (h : decode w = .ok i) (s : State) : issue w s = exec i s := by
  rw [decode] at h
  simp only [issue, issueBy, h]

/-- R77 to R79, R120: an illegal word raises, outside lockout. -/
theorem issue_of_error {w : Word} {r : Reject} {s : State} (h : decode w = .error r) (h0 : s.err = 0) :
    issue w s = .next (raise params .illegalCommand w s) := by
  rw [decode] at h
  simp [issue, issueBy, h, h0]

/-- R227: in lockout an illegal word is not diagnosed. -/
theorem issue_of_error_locked {w : Word} {r : Reject} {s : State} (h : decode w = .error r) (h0 : s.err ≠ 0) :
    issue w s = .next s := by
  rw [decode] at h
  simp only [issue, issueBy, h, if_pos h0]

theorem step_idle {s : State} (h : s.host.script = []) : step s = .next s := by simp [step, serve, serveBy, h]

theorem step_command {s : State} {w : Word} {rest : List HostEvent} (h : s.host.script = .command w :: rest) :
    step s = issue w (advance rest s) := by simp [step, serve, serveBy, h]

theorem step_observe {s : State} {r : ObsName} {rest : List HostEvent} (h : s.host.script = .observe r :: rest) :
    step s = .next (observeEvent r (advance rest s)) := by simp [step, serve, serveBy, observeEvent, h]

theorem step_reset {s : State} {rest : List HostEvent} (h : s.host.script = .reset :: rest) :
    step s = .next (resetEvent (advance rest s)) := by simp [step, serve, serveBy, h]

/-! ### Layouts (R190) -/

/-- The whole table of R190 with the spec's values. -/
theorem layoutOf_params (tr : BitVec 2) :
    layoutOf params tr =
      if tr = 0 then some ⟨64, 1, 63, 0x02, 1, false⟩ else if tr = 1 then some ⟨78, 1, 78, 0x31, 3, true⟩ else none := rfl

theorem consistent_params : consistent params = true := by decide

theorem codable_params : codable params = true := by decide

/-! ### Registers and groups -/

/-- A register write, seen through reads (R126). -/
theorem getElem_setRegC (s : State) {r x : Nat} (v : Byte) (hx : x < 36) :
    (setRegC s r v)[x] = if r = x then v else s.c[x] := by
  simp [setRegC, Vector.getElem_setIfInBounds]

theorem regC_eq (s : State) {r : Nat} (h : r < 36) : regC s r = s.c[r] := by simp [regC, h]

/-- The groups partition the registers C[0] to C[33] (R21). -/
theorem mem_groupRegs {g : Group} {r : Nat} : r ∈ groupRegs g ↔ r < 36 ∧ groupOf r = some g := by
  simp [groupRegs]

/-- A group's bit after a register write (R22, R126). -/
theorem getLsbD_populate (v : Byte) (r : Nat) (g : Group) :
    (populate v r).getLsbD (groupBit g) = (v.getLsbD (groupBit g) || decide (groupOf r = some g)) := by
  unfold populate
  cases h : groupOf r with
  | none => simp
  | some g' =>
    have : (1#8 <<< groupBit g').getLsbD (groupBit g) = decide (g' = g) := by cases g <;> cases g' <;> decide
    simp only [BitVec.getLsbD_or, this, Option.some.injEq]

/-! ### The checksum -/

/-- R148: feeding two sequences one after the other is feeding their concatenation. -/
theorem crcFeed_append (P : Params) (c : Word) (s t : List Byte) :
    crcFeed P c (s ++ t) = crcFeed P (crcFeed P c s) t := by simp [crcFeed]

@[simp] theorem crcFeed_nil (P : Params) (c : Word) : crcFeed P c [] = c := rfl

@[simp] theorem crcFeed_cons (P : Params) (c : Word) (x : Byte) (s : List Byte) :
    crcFeed P c (x :: s) = crcFeed P (crcStep P c x) s := rfl

/-- A buffer whose trailer is overwritten has the same bytes once the trailer is zeroed. -/
theorem bufRead_zeroTrailer (b : Buffer) {L : Nat} (h4 : 4 ≤ L) (x : Nat) :
    bufRead (zeroTrailer b L) x = if L - 4 ≤ x ∧ x < L then 0 else bufRead b x := by
  unfold zeroTrailer
  rw [bufRead_memWrite4]
  by_cases h : L - 4 ≤ x ∧ x < L
  · rw [if_pos h, if_pos (by omega)]; simp
  · rw [if_neg h, if_neg (by omega)]

/-- The bytes a checksum is computed over depend on the buffer below the trailer alone (R165). -/
theorem signAcc_congr (P : Params) (k : BitVec 2) {b c : Buffer} {L : Nat} (h4 : 4 ≤ L)
    (h : ∀ x, x < L - 4 → bufRead b x = bufRead c x) : signAcc P k b L = signAcc P k c L := by
  unfold signAcc
  congr 1
  apply bufBytes_congr
  intro x _ hx
  rw [bufRead_zeroTrailer b h4, bufRead_zeroTrailer c h4]
  split
  · rfl
  · apply h; unfold coveredLen at hx; split at hx <;> omega

/-- What a buffer reads as after CRCSIGN (R158): the checksum in the last four bytes, the rest as before. -/
theorem bufRead_sign (P : Params) (k : BitVec 2) (s : State) (h4 : 4 ≤ s.bufLen.toNat) (x : Nat) :
    bufRead (sign P k s).buf x =
      if s.bufLen.toNat - 4 ≤ x ∧ x < s.bufLen.toNat then
        (signRes P k s.buf s.bufLen.toNat).extractLsb' (8 * (x - (s.bufLen.toNat - 4))) 8
      else bufRead s.buf x := by
  rw [sign_buf, bufRead_memWrite4, bufRead_zeroTrailer _ h4]
  by_cases h : s.bufLen.toNat - 4 ≤ x ∧ x < s.bufLen.toNat
  · rw [if_pos (by omega), if_pos h]
  · rw [if_neg (by omega), if_neg h, if_neg h]

/-- Signing writes the trailer alone, which is below n if the report is. -/
theorem sign_below (P : Params) (k : BitVec 2) {s : State} {n : Nat} (h4 : 4 ≤ s.bufLen.toNat) (hn : s.bufLen.toNat ≤ n)
    (h : WrittenBelow n s.buf) : WrittenBelow n (sign P k s).buf :=
  memWrite4_below _ (by omega) (memWrite4_below _ (by omega) h)

theorem sign_wf (P : Params) (k : BitVec 2) {s : State} (h : s.buf.cells.wf = true) :
    (sign P k s).buf.cells.wf = true :=
  memWrite4_wf _ _ (memWrite4_wf _ _ h)

/-! ### ENCODE -/

theorem encodeHeader_wf (P : Params) (L : Layout) {s : State} (h : s.buf.cells.wf = true) :
    (encodeHeader P L s).cells.wf = true := by
  unfold encodeHeader
  have h1 := bufWrite_wf 0 L.reportId (bufZero_wf L.outLen.toNat h)
  cases L.bt
  · exact h1
  · exact bufWrite_wf _ _ (bufWrite_wf _ _ h1)

theorem encodeGroup_wf (P : Params) (L : Layout) (s : State) (b : Buffer) (g : Group) (h : b.cells.wf = true) :
    (encodeGroup P L s b g).cells.wf = true := by
  unfold encodeGroup
  split
  · exact bufWrite_wf _ _ (foldl_wf _ (fun _ _ h => bufWrite_wf _ _ h) _ _ h)
  · exact h

theorem encodeReport_wf (P : Params) (L : Layout) {s : State} (h : s.buf.cells.wf = true) :
    (encodeReport P L s).cells.wf = true :=
  foldl_wf _ (encodeGroup_wf P L s) _ _ (encodeHeader_wf P L h)

/-- Every offset that ENCODE writes under one of the spec's layouts is below 78 (R10, R106). -/
theorem outOffset_params_lt (r : Nat) : outOffset params r ≤ 46 := by
  by_cases h : r < 34
  · have : ∀ r : Fin 34, outOffset params r.val ≤ 46 := by decide
    exact this ⟨r, h⟩
  · have : params.outOff[r]? = none := Vector.getElem?_eq_none (by omega)
    simp [outOffset, this]

theorem encodeReport_below {L : Layout} {tr : BitVec 2} (hL : layoutOf params tr = some L) {s : State}
    (h : WrittenBelow 78 s.buf) : WrittenBelow 78 (encodeReport params L s) := by
  have hb : L.outBase ≤ 3 ∧ L.outLen.toNat ≤ 78 := by
    rw [layoutOf_params] at hL
    split at hL
    · cases hL; decide
    · split at hL
      · cases hL; decide
      · cases hL
  apply foldl_below
  · intro b g _ hg
    unfold encodeGroup
    split
    · refine bufWrite_below _ ?_ (foldl_below _ _ (fun c r _ hc => bufWrite_below _ ?_ hc) _ hg)
      · have : params.voff (params.vbyte g) ≤ 38 := by cases g <;> decide
        omega
      · have := outOffset_params_lt r
        omega
    · exact hg
  · have h1 : WrittenBelow 78 (bufWrite (bufZero s.buf L.outLen.toNat) 0 L.reportId) :=
      bufWrite_below _ (by omega) (bufZero_below hb.2 h)
    unfold encodeHeader
    split
    · exact bufWrite_below _ (by decide) (bufWrite_below _ (by decide) h1)
    · exact h1

end Sys2Proof.Machine
end

