-- ==== Sys2Proof/Laws/Checksum.lean ====
section
/-! SUPPORT. The checksum's algebra: one shift, several and one step are linear over exclusive or, and lose nothing. -/

namespace Sys2Proof.Machine

/-- One shift as an exclusive or with the polynomial or with nothing (R140). -/
theorem crcShift_params (c : Word) :
    crcShift params c = (c >>> 1) ^^^ (if c.getLsbD 0 then 0xEDB88320 else 0) := by
  unfold crcShift
  cases c.getLsbD 0 <;> simp [params]

/-- A shift is linear (R140). -/
theorem crcShift_xor (c d : Word) : crcShift params (c ^^^ d) = crcShift params c ^^^ crcShift params d := by
  simp only [crcShift_params, BitVec.ushiftRight_xor_distrib, BitVec.getLsbD_xor]
  generalize c >>> 1 = x
  generalize d >>> 1 = y
  cases c.getLsbD 0 <;> cases d.getLsbD 0 <;>
    (apply BitVec.eq_of_getLsbD_eq; intro i _; simp only [BitVec.getLsbD_xor]; simp [Bool.xor_left_comm, Bool.xor_comm])

theorem crcShifts_xor (n : Nat) (c d : Word) :
    crcShifts params n (c ^^^ d) = crcShifts params n c ^^^ crcShifts params n d := by
  induction n generalizing c d with
  | zero => rfl
  | succ n ih => simp only [crcShifts, crcShift_xor, ih]

/-- A shift loses nothing: its result's top bit is the bit shifted out (R140). -/
theorem getLsbD_crcShift_top (c : Word) : (crcShift params c).getLsbD 31 = c.getLsbD 0 := by
  rw [crcShift_params]
  cases c.getLsbD 0 <;> simp

theorem crcShift_injective {c d : Word} (h : crcShift params c = crcShift params d) : c = d := by
  have h0 : c.getLsbD 0 = d.getLsbD 0 := by rw [← getLsbD_crcShift_top, h, getLsbD_crcShift_top]
  rw [crcShift_params, crcShift_params, h0] at h
  have hs : c >>> 1 = d >>> 1 := by
    have := congrArg (· ^^^ (if d.getLsbD 0 = true then (0xEDB88320 : Word) else 0)) h
    simpa [BitVec.xor_assoc] using this
  apply BitVec.eq_of_getLsbD_eq
  intro i hi
  cases i with
  | zero => exact h0
  | succ i =>
    have := congrArg (fun v : Word => v.getLsbD i) hs
    simpa [BitVec.getLsbD_ushiftRight, Nat.add_comm] using this

theorem crcShifts_injective {n : Nat} {c d : Word} (h : crcShifts params n c = crcShifts params n d) : c = d := by
  induction n generalizing c d with
  | zero => exact h
  | succ n ih => exact crcShift_injective (ih h)

/-- The running checksum determines the one before it, given the bytes fed (R140, R141). -/
theorem crcFeed_injective (bytes : List Byte) {c d : Word} (h : crcFeed params c bytes = crcFeed params d bytes) :
    c = d := by
  induction bytes generalizing c d with
  | nil => exact h
  | cons v bytes ih =>
    have h1 := crcShifts_injective (ih h)
    have := congrArg (· ^^^ (v.setWidth 32 : Word)) h1
    simpa [BitVec.xor_assoc] using this

end Sys2Proof.Machine
end

