-- ==== Sys2Proof/Laws/Instances.lean ====
section
/-! SUPPORT. Instances share nothing (R245): a step of one leaves every other as it is. -/

namespace Sys2Proof.Machine

/-- Each freshly reset instance has a source of its own (log 10). -/
theorem freshInstances_source {n k : Nat} (h : k < n) : (freshInstances n)[k]?.map (·.buf.source) = some k := by
  simp [freshInstances, h]

theorem stepInstance_length (k : Nat) (blocks : List State) : (stepInstance k blocks).length = blocks.length := by
  unfold stepInstance
  split
  · split <;> simp
  · rfl

theorem stepInstance_other {k j : Nat} (h : k ≠ j) (blocks : List State) :
    (stepInstance k blocks)[j]? = blocks[j]? := by
  unfold stepInstance
  split
  · split
    · exact List.getElem?_set_ne h
    · rfl
    · rfl
  · rfl

theorem stepInstance_self {k : Nat} {blocks : List State} {s t : State} (h : blocks[k]? = some s)
    (ht : step s = .next t) : (stepInstance k blocks)[k]? = some t := by
  have hk : k < blocks.length := (List.getElem?_eq_some_iff.mp h).1
  simp only [stepInstance, h, ht]
  simp [hk]

end Sys2Proof.Machine
end

