-- ==== Sys2Proof/Laws/PerInstr.lean ====
section
/-! SUPPORT. The statements made once a constructor of Instr: decoding the encoding of a well-formed operation gives it
back (R75, R76, R85). -/

namespace Sys2Proof

/-! ### Fields of the four formats -/

/-- The high part of a concatenation. -/
theorem append_high {m n : Nat} (x : BitVec n) (y : BitVec m) : (x ++ y).extractLsb' m n = x := by
  rw [BitVec.extractLsb'_append_eq_of_le (Nat.le_refl m)]
  simp

/-- A field inside the low part of a concatenation. -/
theorem append_low {m n s k : Nat} (x : BitVec n) (y : BitVec m) (h : s + k ≤ m) :
    (x ++ y).extractLsb' s k = y.extractLsb' s k :=
  BitVec.extractLsb'_append_eq_of_add_le h

theorem whole (x : BitVec n) : x.extractLsb' 0 n = x := by simp

theorem opField_append (op : Byte) (x : BitVec 24) : opField (op ++ x) = op := append_high op x

theorem opField_encF0 (op : Byte) : opField (encF0 op) = op := opField_append op _
theorem opField_encFK (op : Byte) (k : BitVec 2) : opField (encFK op k) = op := opField_append op _
theorem opField_encFA (op a v : Byte) : opField (encFA op a v) = op := opField_append op _
theorem opField_encFB (op : Byte) (b : BitVec 10) (l : BitVec 6) (v : Byte) : opField (encFB op b l v) = op :=
  opField_append op _

theorem zeroF0_encF0 (op : Byte) : zeroF0 (encF0 op) = true :=
  beq_iff_eq.mpr ((append_low op (0 : BitVec 24) (by omega)).trans (whole _))

theorem zeroFK_encFK (op : Byte) (k : BitVec 2) : zeroFK (encFK op k) = true :=
  beq_iff_eq.mpr ((append_low op ((0 : BitVec 22) ++ k) (by omega)).trans (append_high _ k))

theorem kField_encFK (op : Byte) (k : BitVec 2) : kField (encFK op k) = k :=
  (append_low op ((0 : BitVec 22) ++ k) (by omega)).trans ((append_low _ k (by omega)).trans (whole k))

theorem zeroFA_encFA (op a v : Byte) : zeroFA (encFA op a v) = true :=
  beq_iff_eq.mpr ((append_low op ((0 : BitVec 8) ++ (a ++ v)) (by omega)).trans (append_high _ (a ++ v)))

theorem aField_encFA (op a v : Byte) : aField (encFA op a v) = a :=
  (append_low op ((0 : BitVec 8) ++ (a ++ v)) (by omega)).trans
    ((append_low _ (a ++ v) (by omega)).trans (append_high a v))

theorem immField_encFA (op a v : Byte) : immField (encFA op a v) = v :=
  (append_low op ((0 : BitVec 8) ++ (a ++ v)) (by omega)).trans
    ((append_low _ (a ++ v) (by omega)).trans ((append_low a v (by omega)).trans (whole v)))

theorem zeroFA1_encFA (op v : Byte) : zeroFA1 (encFA op 0 v) = true := by
  have h : ((0 : BitVec 8) ++ ((0 : BitVec 8) ++ v)).extractLsb' 8 16 = 0 := by
    apply BitVec.eq_of_getLsbD_eq
    intro i hi
    simp only [BitVec.getLsbD_extractLsb', BitVec.getLsbD_append]
    simp
  exact beq_iff_eq.mpr ((append_low op _ (by omega)).trans h)

theorem boffField_encFB (op : Byte) (b : BitVec 10) (l : BitVec 6) (v : Byte) : boffField (encFB op b l v) = b :=
  (append_low op (b ++ (l ++ v)) (by omega)).trans (append_high b (l ++ v))

theorem lenField_encFB (op : Byte) (b : BitVec 10) (l : BitVec 6) (v : Byte) : lenField (encFB op b l v) = l :=
  (append_low op (b ++ (l ++ v)) (by omega)).trans ((append_low b (l ++ v) (by omega)).trans (append_high l v))

theorem immField_encFB (op : Byte) (b : BitVec 10) (l : BitVec 6) (v : Byte) : immField (encFB op b l v) = v :=
  (append_low op (b ++ (l ++ v)) (by omega)).trans
    ((append_low b (l ++ v) (by omega)).trans ((append_low l v (by omega)).trans (whole v)))

theorem zeroFB_encFB (op : Byte) (b : BitVec 10) (l : BitVec 6) : zeroFB (encFB op b l 0) = true :=
  beq_iff_eq.mpr (immField_encFB op b l 0)

/-! ### The four formats as the rules of the operations write them -/

theorem encFK_eq (op : Byte) (k : BitVec 2) : encFK op k = op.setWidth 32 <<< 24 ||| k.setWidth 32 := by
  apply BitVec.eq_of_getLsbD_eq
  intro i hi
  unfold encFK
  change BitVec.getLsbD (w := 8 + (22 + 2)) _ i = _
  rw [BitVec.getLsbD_append, BitVec.getLsbD_append, BitVec.getLsbD_or, BitVec.getLsbD_shiftLeft,
    BitVec.getLsbD_setWidth, BitVec.getLsbD_setWidth]
  by_cases h1 : i < 2
  · simp [h1, show i < 24 by omega, show i < 32 by omega]
  by_cases h2 : i < 24
  · simp [h2, show k.getLsbD i = false from BitVec.getLsbD_of_ge _ _ (by omega)]
  · simp [h2, hi, show i - 24 < 32 by omega, show k.getLsbD i = false from BitVec.getLsbD_of_ge _ _ (by omega)]

theorem encFA_eq (op a v : Byte) :
    encFA op a v = op.setWidth 32 <<< 24 ||| a.setWidth 32 <<< 8 ||| v.setWidth 32 := by
  apply BitVec.eq_of_getLsbD_eq
  intro i hi
  unfold encFA
  change BitVec.getLsbD (w := 8 + (8 + (8 + 8))) _ i = _
  simp only [BitVec.getLsbD_append, BitVec.getLsbD_or, BitVec.getLsbD_shiftLeft, BitVec.getLsbD_setWidth]
  by_cases h1 : i < 8
  · simp [h1, show i < 8 + (8 + 8) by omega, show i < 8 + 8 by omega, hi]
  have hv : v.getLsbD i = false := BitVec.getLsbD_of_ge _ _ (by omega)
  by_cases h2 : i < 16
  · simp [h1, h2, hv, show i < 8 + (8 + 8) by omega, show i - 8 < 32 by omega, hi]
  have ha : a.getLsbD (i - 8) = false := BitVec.getLsbD_of_ge _ _ (by omega)
  by_cases h3 : i < 24
  · simp [h2, hv, ha, h3]
  · simp [hv, ha, h3, show i - 24 < 32 by omega, hi]

theorem encFB_eq (op : Byte) (b : BitVec 10) (l : BitVec 6) (v : Byte) :
    encFB op b l v = op.setWidth 32 <<< 24 ||| b.setWidth 32 <<< 14 ||| l.setWidth 32 <<< 8 ||| v.setWidth 32 := by
  apply BitVec.eq_of_getLsbD_eq
  intro i hi
  unfold encFB
  change BitVec.getLsbD (w := 8 + (10 + (6 + 8))) _ i = _
  simp only [BitVec.getLsbD_append, BitVec.getLsbD_or, BitVec.getLsbD_shiftLeft, BitVec.getLsbD_setWidth]
  by_cases h1 : i < 8
  · simp [h1, show i < 10 + (6 + 8) by omega, show i < 6 + 8 by omega, hi]
  have hv : v.getLsbD i = false := BitVec.getLsbD_of_ge _ _ (by omega)
  by_cases h2 : i < 14
  · simp [h1, h2, hv, show i < 10 + (6 + 8) by omega, show i - 8 < 32 by omega, hi]
  have hl : l.getLsbD (i - 8) = false := BitVec.getLsbD_of_ge _ _ (by omega)
  by_cases h3 : i < 24
  · simp [h2, hv, hl, h3, show i - 14 < 32 by omega, hi]
  have hb : b.getLsbD (i - 14) = false := BitVec.getLsbD_of_ge _ _ (by omega)
  simp [hv, hl, hb, h3, show i - 24 < 32 by omega, hi]

theorem accept_ok {P : Params} {zeros : Bool} {i : Instr} (hz : zeros = true) (hw : Machine.inRange P i = true) :
    accept P zeros i = .ok i := by simp [accept, hz, hw]

/-- Each code of R76 names its operation. -/
theorem opOf_params (o : Op) : opOf Machine.params (Machine.params.opcode o) = some o := by cases o <;> rfl

/-- A word with the code of an operation is decoded by its operands (R75, R76). -/
theorem decode_of_opField {w : Word} {o : Op} (h : opField w = Machine.params.opcode o) :
    decode w = readOperands Machine.params o w := by simp only [decode, decodeWith, h, opOf_params]

/-- A code is an operation's exactly if R76 gives it to it. -/
theorem opOf_eq_some {code : Byte} {o : Op} : opOf Machine.params code = some o ↔ Machine.params.opcode o = code := by
  constructor
  · intro h
    simpa using List.find?_some h
  · rintro rfl
    exact opOf_params o

/-! ### The round trip, one lemma a constructor -/

/-- The statement about one operation: its word decodes to it. -/
def Laws.RoundTrip.Statement (i : Instr) : Prop := i.wellFormed = true → decode (encode i) = .ok i

namespace Laws.RoundTrip

theorem newcyc : Statement .newcyc := fun _ => rfl
theorem clrcmd : Statement .clrcmd := fun _ => rfl

theorem settr (t : BitVec 2) : Statement (.settr t) := fun h => by
  rw [encode, encodeWith, decode_of_opField (o := .settr) (opField_encFK _ _)]
  simp only [readOperands, kField_encFK]
  exact accept_ok (zeroFK_encFK _ _) h

theorem setlen (n : Byte) : Statement (.setlen n) := fun h => by
  rw [encode, encodeWith, decode_of_opField (o := .setlen) (opField_encFA _ _ _)]
  simp only [readOperands, immField_encFA]
  exact accept_ok (zeroFA1_encFA _ _) h

theorem wrb (a imm : Byte) : Statement (.wrb a imm) := fun h => by
  rw [encode, encodeWith, decode_of_opField (o := .wrb) (opField_encFA _ _ _)]
  simp only [readOperands, immField_encFA, aField_encFA]
  exact accept_ok (zeroFA_encFA _ _ _) h

theorem wrc (r imm : Byte) : Statement (.wrc r imm) := fun h => by
  rw [encode, encodeWith, decode_of_opField (o := .wrc) (opField_encFA _ _ _)]
  simp only [readOperands, immField_encFA, aField_encFA]
  exact accept_ok (zeroFA_encFA _ _ _) h

theorem crcseed (k : BitVec 2) : Statement (.crcseed k) := fun h => by
  rw [encode, encodeWith, decode_of_opField (o := .crcseed) (opField_encFK _ _)]
  simp only [readOperands, kField_encFK]
  exact accept_ok (zeroFK_encFK _ _) h

theorem crcbyte (imm : Byte) : Statement (.crcbyte imm) := fun h => by
  rw [encode, encodeWith, decode_of_opField (o := .crcbyte) (opField_encFA _ _ _)]
  simp only [readOperands, immField_encFA]
  exact accept_ok (zeroFA1_encFA _ _) h

theorem crcfeed (a n : Byte) : Statement (.crcfeed a n) := fun h => by
  rw [encode, encodeWith, decode_of_opField (o := .crcfeed) (opField_encFA _ _ _)]
  simp only [readOperands, immField_encFA, aField_encFA]
  exact accept_ok (zeroFA_encFA _ _ _) h

theorem crcfin : Statement .crcfin := fun _ => rfl
theorem crcput : Statement .crcput := fun _ => rfl

theorem crcsign (k : BitVec 2) : Statement (.crcsign k) := fun h => by
  rw [encode, encodeWith, decode_of_opField (o := .crcsign) (opField_encFK _ _)]
  simp only [readOperands, kField_encFK]
  exact accept_ok (zeroFK_encFK _ _) h

theorem ext (boff : BitVec 10) (len : BitVec 6) : Statement (.ext boff len) := fun h => by
  rw [encode, encodeWith, decode_of_opField (o := .ext) (opField_encFB _ _ _ _)]
  simp only [readOperands, boffField_encFB, lenField_encFB]
  exact accept_ok (zeroFB_encFB _ _ _) h

theorem inj (boff : BitVec 10) (len : BitVec 6) (imm : Byte) : Statement (.inj boff len imm) := fun h => by
  rw [encode, encodeWith, decode_of_opField (o := .inj) (opField_encFB _ _ _ _)]
  simp only [readOperands, boffField_encFB, lenField_encFB, immField_encFB]
  exact accept_ok rfl h

theorem bset (a mask : Byte) : Statement (.bset a mask) := fun h => by
  rw [encode, encodeWith, decode_of_opField (o := .bset) (opField_encFA _ _ _)]
  simp only [readOperands, immField_encFA, aField_encFA]
  exact accept_ok (zeroFA_encFA _ _ _) h

theorem zfill (n : Byte) : Statement (.zfill n) := fun h => by
  rw [encode, encodeWith, decode_of_opField (o := .zfill) (opField_encFA _ _ _)]
  simp only [readOperands, immField_encFA]
  exact accept_ok (zeroFA1_encFA _ _) h

theorem decode : Statement .decode := fun _ => rfl
theorem batpct : Statement .batpct := fun _ => rfl
theorem encode : Statement .encode := fun _ => rfl

end Laws.RoundTrip

end Sys2Proof
end

