-- ==== Sys2Proof/Laws/Safety.lean ====
section
/-! SUPPORT. What the shared operations do to the notions that claims are stated in. -/

namespace Sys2Proof.Machine

/-- A signed report's trailer is current (R158). -/
theorem trailerCurrent_sign {k : BitVec 2} (hk : k ≠ 3) {s : State} (h4 : 4 ≤ s.bufLen.toNat) :
    TrailerCurrent (sign params k s) := by
  have hr : memRead4 (sign params k s).buf (s.bufLen.toNat - 4) = signRes params k s.buf s.bufLen.toNat := by
    rw [sign_buf]
    exact memRead4_memWrite4 _ _ _
  have ha : signAcc params k (sign params k s).buf s.bufLen.toNat = signAcc params k s.buf s.bufLen.toNat := by
    apply signAcc_congr _ _ h4
    intro x hx
    rw [bufRead_sign _ _ _ h4, if_neg (by omega)]
  have hs : signRes params k (sign params k s).buf s.bufLen.toNat = signRes params k s.buf s.bufLen.toNat := by
    unfold signRes
    rw [ha]
  rw [TrailerCurrent, sign_bufLen]
  exact ⟨h4, k, hk, hr.trans hs.symm⟩

/-- Fault entry and the host's side do not enter into whether a trailer is current. -/
theorem trailerCurrent_congr {s t : State} (hb : s.buf = t.buf) (hl : s.bufLen = t.bufLen) :
    TrailerCurrent s ↔ TrailerCurrent t := by
  simp only [TrailerCurrent, hb, hl]

end Sys2Proof.Machine
end

