-- ==== Sys2Proof/Machine/Pseudo.lean ====
section
/-! DEFINITION. The notation of R82 to R84: register names, pseudo-instructions and their expansions, the text of an
operation, and the order of one cycle (R256). No meaning depends on it. -/

namespace Sys2Proof.Machine

/-- The names of R83, by index. -/
def regNames : List String :=
  ["MOTOR_R", "MOTOR_L", "VOL_HP", "VOL_SPK", "VOL_MIC", "AUDIO_FLAGS", "POWER_SAVE"] ++
  ["TRIG_R_MODE", "TRIG_R_P0", "TRIG_R_P1", "TRIG_R_P2", "TRIG_R_P3", "TRIG_R_P4", "TRIG_R_P5"] ++
  ["TRIG_R_P6", "TRIG_R_P7", "TRIG_R_P8", "TRIG_R_P9"] ++
  ["TRIG_L_MODE", "TRIG_L_P0", "TRIG_L_P1", "TRIG_L_P2", "TRIG_L_P3", "TRIG_L_P4", "TRIG_L_P5"] ++
  ["TRIG_L_P6", "TRIG_L_P7", "TRIG_L_P8", "TRIG_L_P9"] ++
  ["LED_BRIGHT", "PLAYER_LEDS", "LB_R", "LB_G", "LB_B", "SEQ_TAG", "TAG"]

/-- The index of a register name (R83). -/
def regIndex (name : String) : Option Nat := regNames.findIdx? fun n => n == name

/-- The pseudo-instructions of R84, with their offsets as they are written. -/
inductive Pseudo where
  | load (a : Nat) (bytes : List Byte)
  | recv (n : Byte)
  | rgb (r g b : Byte)
  | sign
  | getU8 (a : Nat)
  | getLe16 (a : Nat)
  | getLe32 (a : Nat)
  | getNibLo (a : Nat)
  | getNibHi (a : Nat)
  | putU8 (a : Nat) (v : Byte)
deriving DecidableEq, Repr

/-- A byte offset as an operand, if its 8-bit field holds it (R73). -/
def byteOperand (a : Nat) : Option Byte := if a < 2 ^ 8 then some (BitVec.ofNat 8 a) else none

/-- A bit offset as an operand, if its 10-bit field holds it (R74). -/
def bitOperand (b : Nat) : Option (BitVec 10) := if b < 2 ^ 10 then some (BitVec.ofNat 10 b) else none

/-- `WRB a, b0`, `WRB a+1, b1`, ... An offset that no operand holds has no expansion: DESIGN CHOICE (log 12), safe. -/
def expandLoad : Nat → List Byte → Option (List Instr)
  | _, [] => some []
  | a, v :: rest =>
    match byteOperand a, expandLoad (a + 1) rest with
    | some x, some l => some (.wrb x v :: l)
    | _, _ => none

/-- `EXT b, len`, if the operand holds b (log 12). -/
def expandExt (b : Nat) (len : BitVec 6) : Option (List Instr) := (bitOperand b).map fun x => [.ext x len]

/-- The expansions of R84; none where an offset does not fit its operand (log 12). -/
def expand (p : Pseudo) : Option (List Instr) :=
  match p with
  | .load a bytes => expandLoad a bytes
  | .recv n => some [.setlen n]
  | .rgb r g b => some [.wrc 31 r, .wrc 32 g, .wrc 33 b]
  | .sign => some [.crcsign 0]
  | .getU8 a => expandExt (8 * a) 8
  | .getLe16 a => expandExt (8 * a) 16
  | .getLe32 a => expandExt (8 * a) 32
  | .getNibLo a => expandExt (8 * a) 4
  | .getNibHi a => expandExt (8 * a + 4) 4
  | .putU8 a v => (bitOperand (8 * a)).map fun x => [.inj x 8 v]

/-- The transport operand of SETTR (R82). -/
def transportText (t : BitVec 2) : String :=
  match t.toNat with
  | 0 => "USB"
  | 1 => "BT"
  | 2 => "T2"
  | _ => "T3"

/-- The kind operand of CRCSEED and CRCSIGN (R82); 3 has no name and is written as a number. -/
def kindText (k : BitVec 2) : String :=
  match k.toNat with
  | 0 => "OUT"
  | 1 => "IN"
  | 2 => "FEAT"
  | _ => "3"

/-- The operands in the order of R76's column, numbers in decimal (R82). -/
def operandText : Instr → List String
  | .newcyc | .clrcmd | .crcfin | .crcput | .decode | .batpct | .encode => []
  | .settr t => [transportText t]
  | .crcseed k | .crcsign k => [kindText k]
  | .setlen n | .zfill n | .crcbyte n => [toString n.toNat]
  | .wrb a v | .crcfeed a v | .bset a v => [toString a.toNat, toString v.toNat]
  | .wrc r v => [regNames[r.toNat]?.getD (toString r.toNat), toString v.toNat]
  | .ext b l => [toString b.toNat, toString l.toNat]
  | .inj b l v => [toString b.toNat, toString l.toNat, toString v.toNat]

/-- One operation as a line of R82. -/
def asmText (i : Instr) : String :=
  if (operandText i).isEmpty then mnemonic i else mnemonic i ++ " " ++ ", ".intercalate (operandText i)

/-- The operations of one cycle in the order of R256: the report's bytes, its length, the registers to write; none if the
bytes have no LOAD (log 12). -/
def cycle (bytes : List Byte) (n : Byte) (writes : List (Byte × Byte)) : Option (List Instr) :=
  (expandLoad 0 bytes).map fun load =>
    [.newcyc] ++ load ++ [.setlen n, .decode, .batpct, .clrcmd] ++ (writes.map fun w => Instr.wrc w.1 w.2) ++ [.encode]

end Sys2Proof.Machine
end

