-- ==== Sys2Proof/Tests/Slice0.lean ====
section
/-! SUPPORT. Tests: ill-formed terms refused, words written out from the encodings, one step each of the spec's vectors
(95_test_vectors.md, by their names V1 to V84, S1 to S5, P1 to P5), and a witness of every statement's hypotheses. -/

open Sys2Proof Sys2Proof.Machine

namespace Sys2Proof.Tests

/-! ### Helpers -/

/-- The state an operation leaves. -/
def after : Result → State
  | .next t => t
  | .fault _ => State.reset
  | .refused _ => State.reset

/-- One command word, performed. -/
def obey (w : Word) (s : State) : State := after (issue w s)

/-- Cells from an offset on. -/
def cellsFrom : Nat → List Byte → Memory
  | _, [] => []
  | a, v :: rest => (a, v) :: cellsFrom (a + 1) rest

/-- A fresh block whose buffer holds a report. -/
def holding (bytes : List Byte) : State :=
  { State.reset with buf := ⟨cellsFrom 0 bytes, 0, 0⟩, bufLen := BitVec.ofNat 7 bytes.length }

/-- The bytes of the report. -/
def report (s : State) : List Byte := bufBytes s.buf 0 s.bufLen.toNat

/-! ### WellFormed refuses an ill-formed term of each check (R79) -/

theorem test_wellFormed_setlen : (Instr.setlen 79).wellFormed = false ∧ (Instr.setlen 78).wellFormed = true := by decide
theorem test_wellFormed_zfill : (Instr.zfill 79).wellFormed = false ∧ (Instr.zfill 78).wellFormed = true := by decide
theorem test_wellFormed_wrb : (Instr.wrb 78 0).wellFormed = false ∧ (Instr.wrb 77 255).wellFormed = true := by decide
theorem test_wellFormed_wrc : (Instr.wrc 36 0).wellFormed = false ∧ (Instr.wrc 35 255).wellFormed = true := by decide
theorem test_wellFormed_crcseed : (Instr.crcseed 3).wellFormed = false ∧ (Instr.crcseed 2).wellFormed = true := by decide
theorem test_wellFormed_crcsign : (Instr.crcsign 3).wellFormed = false ∧ (Instr.crcsign 2).wellFormed = true := by decide
theorem test_wellFormed_ext : (Instr.ext 0 0).wellFormed = false ∧ (Instr.ext 0 33).wellFormed = false ∧
    (Instr.ext 1023 32).wellFormed = true ∧ (Instr.ext 0 1).wellFormed = true := by decide
theorem test_wellFormed_inj : (Instr.inj 0 0 0).wellFormed = false ∧ (Instr.inj 0 9 0).wellFormed = false ∧
    (Instr.inj 0 4 16).wellFormed = false ∧ (Instr.inj 1023 8 255).wellFormed = true ∧
    (Instr.inj 0 1 1).wellFormed = true := by decide

/-! ### Words written out bit by bit from R71 to R76 -/

-- op, then zeros
theorem test_decode_f0 :
    decode 0b00000001000000000000000000000000 = .ok .newcyc ∧ decode 0b00000010000000000000000000000000 = .ok .clrcmd ∧
    decode 0b00010011000000000000000000000000 = .ok .crcfin ∧ decode 0b00010100000000000000000000000000 = .ok .crcput ∧
    decode 0b00110000000000000000000000000000 = .ok .decode ∧ decode 0b00110001000000000000000000000000 = .ok .batpct ∧
    decode 0b00110010000000000000000000000000 = .ok .encode := ⟨rfl, rfl, rfl, rfl, rfl, rfl, rfl⟩
-- op, 22 zeros, k
theorem test_decode_fk :
    decode 0b00000011000000000000000000000010 = .ok (.settr 2) ∧
    decode 0b00010000000000000000000000000001 = .ok (.crcseed 1) ∧
    decode 0b00010101000000000000000000000010 = .ok (.crcsign 2) := ⟨rfl, rfl, rfl⟩
-- op, 8 zeros, a, imm: a = 0x35 or register 0x22, imm = 0xF4
theorem test_decode_fa :
    decode 0b00000101000000000011010111110100 = .ok (.wrb 0x35 0xF4) ∧
    decode 0b00000110000000000010001011110100 = .ok (.wrc 0x22 0xF4) ∧
    decode 0b00010010000000000011010111110100 = .ok (.crcfeed 0x35 0xF4) ∧
    decode 0b00100010000000000011010111110100 = .ok (.bset 0x35 0xF4) := ⟨rfl, rfl, rfl, rfl⟩
-- op, 16 zeros, imm
theorem test_decode_fa1 :
    decode 0b00000100000000000000000001001110 = .ok (.setlen 78) ∧
    decode 0b00010001000000000000000011110100 = .ok (.crcbyte 0xF4) ∧
    decode 0b00100011000000000000000001001110 = .ok (.zfill 78) := ⟨rfl, rfl, rfl⟩
-- op, boff = 0b1000000001 in bits 23 to 14, len in bits 13 to 8, imm
theorem test_decode_fb :
    decode 0b00100000100000000110000000000000 = .ok (.ext 0b1000000001 32) ∧
    decode 0b00100001100000000100011100101101 = .ok (.inj 0b1000000001 7 0x2D) := ⟨rfl, rfl⟩
-- V70, V71 and R77; V72, V84, 23000100, 20000001; V23, V75, 20000000, 20002100, 21000410, 21000900, 2300004F
theorem test_decode_illegal :
    decode 0x00000000 = .error .reservedOpcode ∧ decode 0xFFFFFFFF = .error .reservedOpcode ∧
    decode 0x07000000 = .error .reservedOpcode ∧ decode 0x33000000 = .error .reservedOpcode ∧
    decode 0x01000001 = .error .mustBeZero ∧ decode 0x03000004 = .error .mustBeZero ∧
    decode 0x23000100 = .error .mustBeZero ∧ decode 0x20000001 = .error .mustBeZero ∧
    decode 0x10000003 = .error .operandRange ∧ decode 0x0400004F = .error .operandRange ∧
    decode 0x05004E00 = .error .operandRange ∧ decode 0x06002400 = .error .operandRange ∧
    decode 0x20000000 = .error .operandRange ∧ decode 0x20002100 = .error .operandRange ∧
    decode 0x21000410 = .error .operandRange ∧ decode 0x21000900 = .error .operandRange ∧
    decode 0x2300004F = .error .operandRange :=
  ⟨rfl, rfl, rfl, rfl, rfl, rfl, rfl, rfl, rfl, rfl, rfl, rfl, rfl, rfl, rfl, rfl, rfl⟩
theorem test_decodeTableWord : decodeTableWord 32 0x050035F4 = some (.wrb 53 0xF4) ∧ decodeTableWord 32 0 = none :=
  ⟨rfl, rfl⟩
theorem test_encode : encode (.inj 392 8 0x80) = 0x21620880 ∧ encode (.wrc 31 255) = 0x06001FFF := by decide

/-! ### Host access -/

-- V73, V74
theorem test_newcyc : obey 0x01000000 (faulted 7 0x01000001 State.reset) = State.reset := by decide
theorem test_newcyc_keeps_command :
    (obey 0x01000000 { holding [1, 2] with tr := 1, grpEn := 5, formed := true }).grpEn = 5 := by decide
-- V80
theorem test_clrcmd : obey 0x02000000 (obey 0x06000100 State.reset) = State.reset := by decide
-- V83, V81
theorem test_settr : (obey 0x03000002 State.reset).tr = 2 := by decide
theorem test_settr_clears :
    let s := { State.reset with tr := 1, formed := true, crcFresh := true, resValid := true, crcSeeded := true }
    statusByte s = 0xF8 ∧ statusByte (obey 0x03000001 s) = 0x18 := by decide
-- V76, V75
theorem test_setlen : (obey 0x0400004E State.reset).bufLen = 78 := by decide
theorem test_setlen_illegal : obey 0x0400004F State.reset = faulted 7 0x0400004F State.reset := by decide
-- V77, V75
theorem test_wrb : (obey 0x05004DAA State.reset).buf.cells = [(77, 0xAA)] ∧
    (obey 0x05004DAA State.reset).bufLen = 0 := by decide
theorem test_wrb_illegal : obey 0x05004E00 State.reset = faulted 7 0x05004E00 State.reset := by decide
-- V79, V78
theorem test_wrc : (obey 0x06000100 State.reset).grpEn = 1 ∧ (obey 0x06001FFF State.reset).c[31] = 0xFF ∧
    (obey 0x06001FFF State.reset).grpEn = 0x80 := by decide
theorem test_wrc_no_group : (obey 0x06002336 State.reset).c[35] = 0x36 ∧ (obey 0x06002336 State.reset).grpEn = 0 := by
  decide

/-! ### The checksum engine -/

-- V2 to V5, V8
theorem test_crcStep : crcStep params 0 1 = 0x77073096 ∧ crcStep params 0xFFFFFFFF 0xFF = 0x00FFFFFF ∧
    crcStep params 0xFFFFFFFF 0 = 0x2DFD1072 ∧ crcStep params 0xFFFFFFFF 0xA2 = 0x1525D2B6 := by decide +kernel
theorem test_stdCrc32 :
    stdCrc32 params [0x31, 0x32, 0x33, 0x34, 0x35, 0x36, 0x37, 0x38, 0x39] = 0xCBF43926 := by decide +kernel
-- V11, V25 (V6)
theorem test_crcseed : (obey 0x10000000 State.reset).crcAcc = 0x39D9F16D ∧
    (obey 0x10000002 State.reset).crcAcc = 0x81659608 := by decide +kernel
theorem test_crcseed_clears_result :
    let t := obey 0x10000001 { State.reset with crcSeeded := true, resValid := true }
    t.crcAcc = 0x2B6C5E83 ∧ statusByte t = 0x08 := by decide +kernel
-- V12
theorem test_crcbyte :
    (obey 0x11000031 { State.reset with crcAcc := 0x39D9F16D, crcSeeded := true }).crcAcc = 0x62E4C42E := by
  decide +kernel
theorem test_crcbyte_notReady : obey 0x11000031 State.reset = faulted 8 0x11000031 State.reset := by decide
-- V13, V16
theorem test_crcfeed :
    (obey 0x12000008 { holding [1, 2, 3, 4, 0, 0, 0, 0] with crcAcc := 0x39D9F16D, crcSeeded := true }).crcAcc
      = 0x38C6D6CE := by decide +kernel
theorem test_crcfeed_truncated :
    let s := { holding [1, 2, 3, 4, 0, 0, 0, 0] with crcAcc := 0x39D9F16D, crcSeeded := true }
    obey 0x12000405 s = faulted 4 0x12000405 s := by decide
-- V14, V21
theorem test_crcfin :
    let t := obey 0x13000000 { State.reset with crcAcc := 0x38C6D6CE, crcSeeded := true }
    t.crcRes = 0xC7392931 ∧ statusByte t = 0x18 := by decide
theorem test_crcfin_notReady : obey 0x13000000 State.reset = faulted 8 0x13000000 State.reset := by decide
-- V15, V22
theorem test_crcput :
    let s := { holding [1, 2, 3, 4, 0, 0, 0, 0] with
      crcRes := 0xC7392931, resValid := true, crcSeeded := true, crcFresh := true }
    report (obey 0x14000000 s) = [1, 2, 3, 4, 0x31, 0x29, 0x39, 0xC7] ∧ statusByte (obey 0x14000000 s) = 0x18 := by
  decide
theorem test_crcput_notReady : obey 0x14000000 State.reset = faulted 8 0x14000000 State.reset := by decide
-- V17, V20
theorem test_crcsign :
    let t := obey 0x15000001 (holding [1, 2, 3, 4, 9, 9, 9, 9])
    t.crcAcc = 0x4F58043E ∧ t.crcRes = 0xB0A7FBC1 ∧ report t = [1, 2, 3, 4, 0xC1, 0xFB, 0xA7, 0xB0] ∧
    statusByte t = 0x58 := by decide +kernel
theorem test_crcsign_truncated : obey 0x15000000 (holding [0, 0, 0]) = faulted 4 0x15000000 (holding [0, 0, 0]) := by
  decide

/-! ### Bit fields -/

/-- The start of V26 to V35. -/
def four : State := holding [0xF0, 0xA5, 0x3C, 0x81]

-- V26, V27, V28; V29
theorem test_ext : (obey 0x20010800 four).xdata = 0x5F ∧ (obey 0x20002000 four).xdata = 0x813CA5F0 ∧
    (obey 0x2007C100 four).xdata = 1 ∧ (obey 0x20010800 four).xValid = true := by decide
theorem test_ext_truncated : obey 0x20006000 four = faulted 4 0x20006000 four := by decide
-- V30, V31; past the end
theorem test_inj : report (obey 0x21018400 four) = [0x30, 0xA4, 0x3C, 0x81] ∧
    report (obey 0x21018409 four) = [0x70, 0xA6, 0x3C, 0x81] := by decide
theorem test_inj_illegal : obey 0x21000410 four = faulted 7 0x21000410 four := by decide
-- V33, V35
theorem test_bset : report (obey 0x2200030E four) = [0xF0, 0xA5, 0x3C, 0x8F] := by decide
theorem test_bset_truncated : obey 0x22000401 four = faulted 4 0x22000401 four := by decide
-- V39; V20's start
theorem test_zfill : report (obey 0x23000003 four) = [0, 0, 0] ∧ bufRead (obey 0x23000003 four).buf 3 = 0x81 := by decide
theorem test_zfill_zero : obey 0x23000000 State.reset = State.reset := by decide

/-! ### The codec -/

/-- P2's input report. -/
def inputReport : List Byte :=
  [0x01, 0x80, 0x7F, 0x81, 0x7E, 0x10, 0xFF, 0x2A, 0x08, 0x01, 0x02, 0, 0, 0, 0, 0] ++
  [0x34, 0x12, 0xFF, 0xFF, 0x00, 0x80, 0x01, 0x00, 0xFE, 0xFF, 0x00, 0x20, 0x78, 0x56, 0x34, 0x12] ++
  [0x00, 0x05, 0xFF, 0x0F, 0x00, 0x80, 0x00, 0xF0, 0xFF, 0, 0, 0, 0, 0, 0, 0] ++
  [0, 0, 0, 0, 0, 0xF4, 0, 0, 0, 0, 0, 0, 0, 0, 0, 0]

/-- P2 before its DECODE. -/
def received : State := { holding inputReport with tr := 0 }

-- P2, S3
theorem test_decode_plain :
    let r := (obey 0x30000000 received).inp
    r.x = 0x80 ∧ r.y = 0x7F ∧ r.rx = 0x81 ∧ r.ry = 0x7E ∧ r.z = 0x10 ∧ r.rz = 0xFF ∧ r.seq = 0x2A ∧
    r.buttons = 0x00020108 ∧ r.ts = 0x12345678 ∧ r.status = 0xF4 ∧ r.gyro = #v[0x1234, 0xFFFF, 0x8000] ∧
    r.accel = #v[1, 0xFFFE, 0x2000] := by decide
theorem test_decode_touch :
    let r := (obey 0x30000000 received).inp
    r.tp = #v[⟨5, 0x0FFF, 0⟩, ⟨0x80, 0, 0x0FFF⟩] ∧ tpFlag r 0 = false ∧ tpIndex r 0 = 5 ∧ tpFlag r 1 = true ∧
    tpIndex r 1 = 0 ∧ batteryLevel r = 4 ∧ statusFlags r = 0xF := by decide
-- P4 step 3, V56
theorem test_decode_truncated :
    let s := { received with tr := 1 }
    obey 0x30000000 s = faulted 4 0x30000000 s := by decide
theorem test_decode_unsupported : obey 0x30000000 State.reset = faulted 5 0x30000000 State.reset := by decide
-- S1, V40
theorem test_batpct : batteryPercent 0x04 = 50 ∧ batteryPercent 0xF4 = 50 ∧ batteryPercent 0x01 = 12 ∧
    batteryPercent 0x08 = 100 ∧ batteryPercent 0x0F = 187 := by decide
theorem test_batpct_step :
    let t := obey 0x31000000 { State.reset with inp := { InRegs.zero with status := 0xF4 }, inValid := true }
    t.pct = 50 ∧ statusByte t = 0x03 := by decide

/-- P5's command file, every group populated. -/
def everyRegister (tr : BitVec 2) : State :=
  { State.reset with c := Vector.ofFn fun r => BitVec.ofNat 8 (r.val + 1), grpEn := 0xFF, tr := tr }

-- P5, step 38 and step 40
theorem test_encode_usb :
    let t := obey 0x32000000 (everyRegister 0)
    report t = [0x02, 0x0F, 0x82, 0x01, 0x02, 0x03, 0x04, 0x05, 0x06, 0x00, 0x07, 0x08, 0x09, 0x0A, 0x0B, 0x0C] ++
      [0x0D, 0x0E, 0x0F, 0x10, 0x11, 0x12, 0x13, 0x14, 0x15, 0x16, 0x17, 0x18, 0x19, 0x1A, 0x1B, 0x1C] ++
      [0x1D, 0, 0, 0, 0, 0, 0, 0x07, 0, 0, 0, 0x1E, 0x1F, 0x20, 0x21, 0x22] ++ List.replicate 15 0 ∧
    statusByte t = 0xA0 := by decide +kernel
theorem test_encode_bt :
    let t := obey 0x32000000 (everyRegister 1)
    bufBytes t.buf 0 74 = [0x31, 0x23, 0x24, 0x0F, 0x82, 0x01, 0x02, 0x03, 0x04, 0x05, 0x06, 0x00, 0x07, 0x08, 0x09, 0x0A] ++
      [0x0B, 0x0C, 0x0D, 0x0E, 0x0F, 0x10, 0x11, 0x12, 0x13, 0x14, 0x15, 0x16, 0x17, 0x18, 0x19, 0x1A] ++
      [0x1B, 0x1C, 0x1D, 0, 0, 0, 0, 0, 0, 0x07, 0, 0, 0, 0x1E, 0x1F, 0x20] ++
      [0x21, 0x22] ++ List.replicate 24 0 ∧ t.bufLen = 78 ∧ statusByte t = 0xF8 := by decide +kernel

/-! ### The step, the ports, reset, the notation -/

-- P4 step 4
theorem test_lockout : obey 0x31000000 (faulted 4 0x30000000 State.reset) = faulted 4 0x30000000 State.reset := by decide
theorem test_lockout_illegal : obey 0xFFFFFFFF (faulted 4 0x30000000 State.reset) = faulted 4 0x30000000 State.reset := by
  decide
theorem test_fetch : after (step (State.reset.withFetchWord 32 0x03000001)) = { State.reset with tr := 1 } := by decide
theorem test_observe :
    (after (step { four with host := ⟨[.observe (.buf 1)], 0, 0⟩ })).host = ⟨[], 1, 0xA5⟩ := by decide
theorem test_reset_event :
    let t := after (step { four with tr := 0, crcFresh := true, host := ⟨[.reset, .reset], 0, 0⟩ })
    t.tr = 3 ∧ t.crcFresh = false ∧ t.buf = ⟨[], 1, 0⟩ ∧ t.host.script = [.reset] := by decide
theorem test_reset_memory : State.reset.buf.cells.wf = true := by decide
/-- Another record (R7, R9): BUF_SIZE 64, IllegalCommand coded 9, SETLEN coded 0x40. -/
def otherRecord : Params :=
  { params with
    bufSize := 64
    errCode := fun k => if k = .illegalCommand then 9 else errorCode k
    opcode := fun o => if o = .setlen then 0x40 else operationCode o }

theorem test_otherRecord :
    execWith otherRecord (.setlen 65) State.reset = .next (faulted 9 0x40000041 State.reset) ∧
    issueWith otherRecord 0x40000040 State.reset = .next { State.reset with bufLen := 64 } := ⟨rfl, rfl⟩
-- The rows of R84 and R83
theorem test_pseudo : expand (.getNibHi 53) = some [.ext 428 4] ∧ expand (.putU8 49 0x80) = some [.inj 392 8 0x80] ∧
    (expand (.load 0 [0xF0, 0xA5])).map (List.map encode) = some [0x050000F0, 0x050001A5] ∧
    regIndex "LB_R" = some 31 := by decide
-- Log 12: no WRB names offset 256
theorem test_pseudo_past_the_field : expand (.load 255 [1, 2]) = none ∧ expand (.load 255 [1]) = some [.wrb 255 1] ∧
    expand (.getU8 128) = none := by decide
theorem test_asmText : asmText (.wrc 31 255) = "WRC LB_R, 255" ∧ asmText (.settr 1) = "SETTR BT" := by decide +kernel

/-! ### Witnesses: hypotheses of each statement met together, each clause at its boundary -/

theorem witness_DecodeOfEncodeIsTheOperation : (Instr.inj 1023 8 255).wellFormed = true ∧ Instr.encode.wellFormed = true := by
  decide
theorem witness_LegalWordIsItsOperationsEncoding : decode 0x0400004E = .ok (.setlen 78) := rfl
theorem witness_DecoderFollowsTheOpcodeMap :
    (∃ r ∈ opcodeMap, selects r 0x0400004F = true ∧ (r.operands 0x0400004F).wellFormed = false) ∧
    (∃ r ∈ opcodeMap, selects r 0x0400004E = true ∧ (r.operands 0x0400004E).wellFormed = true) ∧
    (∀ r ∈ opcodeMap, selects r 0 = false) ∧ (∀ r ∈ opcodeMap, selects r 0x01000001 = false) := by decide
theorem witness_ReservedOpcodesAreIllegal : State.reset.err = 0 ∧
    ∀ op ∈ [0, 0x07, 0x0F, 0x16, 0x1F, 0x24, 0x2F, 0x33, 0xFF],
      op = 0 ∨ (0x07 ≤ op ∧ op ≤ 0x0F) ∨ (0x16 ≤ op ∧ op ≤ 0x1F) ∨ (0x24 ≤ op ∧ op ≤ 0x2F) ∨ 0x33 ≤ op := by decide
theorem witness_NonzeroReservedBitsAreIllegal : State.reset.err = 0 ∧
    ∃ r ∈ opcodeMap, opField 0x01000001 = opField r.pattern ∧ 0x01000001 &&& r.mask ≠ r.pattern := by decide
theorem witness_OperandsOutOfRangeAreIllegal : State.reset.err = 0 ∧ 78 < (79 : Byte).toNat ∧ 78 ≤ (78 : Byte).toNat ∧
    36 ≤ (36 : Byte).toNat ∧ 32 < (33 : BitVec 6).toNat ∧ 8 < (9 : BitVec 6).toNat ∧
    2 ^ (4 : BitVec 6).toNat ≤ (16 : Byte).toNat ∧ (1 : BitVec 6).toNat = 1 ∧ (32 : BitVec 6).toNat = 32 ∧
    (255 : Byte).toNat < 2 ^ (8 : BitVec 6).toNat := by decide
theorem witness_StepRunsTheDecodedOperation :
    (State.reset.withFetchWord 32 0x32000000).host.script = [.command 0x32000000] ∧ decode 0x32000000 = .ok .encode :=
  ⟨rfl, rfl⟩
theorem witness_StepOnAnIllegalWordRaises :
    (State.reset.withFetchWord 32 1).host.script = [.command 1] ∧ decode 1 = .error .reservedOpcode ∧
    (State.reset.withFetchWord 32 1).err = 0 := ⟨rfl, rfl, rfl⟩
theorem witness_LockoutIgnoresEveryOtherWord :
    let s := issueNext 0x01000001 (faulted 4 0 State.reset)
    s.host.script = [.command 0x01000001] ∧ s.err ≠ 0 ∧ (0x01000001 : Word) ≠ 0x01000000 := by decide
theorem witness_EveryStepConsumesOneEvent : State.reset.host.script = [] := rfl
theorem witness_ObservationChangesNoBlockState :
    let s := { State.reset with crcSeeded := true, resValid := true, xValid := true, pctValid := true, inValid := true
                                host := ⟨[.observe .crcAcc], 0, 0⟩ }
    s.host.script = .observe .crcAcc :: [] ∧ s.crcSeeded = true ∧ s.resValid = true ∧ s.xValid = true ∧
    s.pctValid = true ∧ s.inValid = true ∧ (77 : BitVec 7).toNat < 78 := by decide
theorem witness_ResetGivesTheValuesOfItsTable :
    { four with host := ⟨[.reset], 0, 0⟩ }.host.script = .reset :: [] := rfl
theorem witness_ErrorOfEveryOperation : four.err = 0 ∧ errorAfter (.setlen 79) four = 7 ∧ errorAfter .crcfin four = 8 ∧
    errorAfter .decode four = 5 ∧ errorAfter (.ext 1 32) four = 4 ∧ errorAfter (.ext 0 32) four = 0 := by decide
theorem witness_FaultsChangeOnlyErrAndErrInfo : four.err = 0 ∧
    exec .decode four = .next (faulted 5 0x30000000 four) ∧ (faulted 5 0x30000000 four).err ≠ 0 := ⟨rfl, rfl, by decide⟩
theorem witness_ClrcmdClearsTheCommand : (everyRegister 0).err = 0 := rfl
theorem witness_SettrSelectsTheTransport : (everyRegister 0).err = 0 ∧ ((3 : BitVec 2) = 2 ∨ (3 : BitVec 2) = 3) := by decide
theorem witness_SetlenDeclaresTheLength : four.err = 0 ∧ (78 : Byte).toNat ≤ 78 ∧ 78 < (79 : Byte).toNat := by decide
theorem witness_WrbWritesOneByte : four.err = 0 ∧ (77 : Byte).toNat < 78 ∧ 78 ≤ (78 : Byte).toNat := by decide
theorem witness_WrcWritesOneRegisterAndItsGroup : four.err = 0 ∧ (35 : Byte).toNat < 36 ∧ 36 ≤ (36 : Byte).toNat := by
  decide
theorem witness_CrcseedSeedsTheRunningChecksum : four.err = 0 ∧ (2 : BitVec 2) ≠ 3 := by decide

/-- A seeded block with a result. -/
def seeded : State := { four with crcAcc := 0x39D9F16D, crcSeeded := true, resValid := true }

theorem witness_CrcbyteFeedsOneByte : seeded.err = 0 ∧ seeded.crcSeeded = true ∧ four.err = 0 ∧ four.crcSeeded = false := by
  decide
theorem witness_CrcfeedFeedsBufferBytes : seeded.err = 0 ∧ seeded.crcSeeded = true ∧
    (1 : Byte).toNat + (3 : Byte).toNat ≤ seeded.bufLen.toNat ∧ seeded.bufLen.toNat < (1 : Byte).toNat + (4 : Byte).toNat ∧
    (3 : Byte).toNat = (2 : Byte).toNat + (1 : Byte).toNat ∧ four.crcSeeded = false := by decide
theorem witness_CrcfinFinalises : seeded.err = 0 ∧ seeded.crcSeeded = true ∧ four.err = 0 ∧ four.crcSeeded = false := by
  decide
theorem witness_CrcputStoresTheResult : seeded.err = 0 ∧ seeded.resValid = true ∧ 4 ≤ seeded.bufLen.toNat ∧
    { seeded with bufLen := 3 }.bufLen.toNat < 4 ∧ four.resValid = false := by decide
theorem witness_CrcsignSignsTheBuffer : four.err = 0 ∧ (2 : BitVec 2) ≠ 3 ∧ 4 ≤ four.bufLen.toNat ∧
    { four with bufLen := 3 }.bufLen.toNat < 4 := by decide
theorem witness_CrcsignEqualsItsProgram : four.err = 0 ∧ BufferInRange four ∧ (2 : BitVec 2) ≠ 3 ∧ 4 ≤ four.bufLen.toNat ∧
    (4 : Byte).toNat = four.bufLen.toNat := by decide
theorem witness_TrailerIsTheStandardCrc32 : four.err = 0 ∧ (1 : BitVec 2) ≠ 3 ∧ 4 ≤ four.bufLen.toNat ∧
    ∃ t, exec (.crcsign 1) four = .next t := ⟨rfl, by decide, by decide, _, rfl⟩

/-- Two reports that differ in their one byte below the trailer. -/
def five (v : Byte) : State := holding [v, 1, 2, 3, 4]

theorem witness_ChecksumDependsOnKindAndBodyAlone :
    let s := five 7
    let s' := holding [7, 9, 9, 9, 9]
    s.err = 0 ∧ s'.err = 0 ∧ (0 : BitVec 2) ≠ 3 ∧ 4 ≤ s.bufLen.toNat ∧ s.bufLen = s'.bufLen ∧
    (∀ x, x < s.bufLen.toNat - 4 → bufRead s.buf x = bufRead s'.buf x) ∧ (∃ t, exec (.crcsign 0) s = .next t) ∧
    ∃ t, exec (.crcsign 0) s' = .next t :=
  ⟨rfl, rfl, by decide, by decide, rfl, by decide, ⟨_, rfl⟩, _, rfl⟩
theorem witness_ChangingOneByteChangesTheChecksum :
    let s := five 7
    let s' := five 8
    s.err = 0 ∧ s'.err = 0 ∧ (0 : BitVec 2) ≠ 3 ∧ 4 ≤ s.bufLen.toNat ∧ s.bufLen = s'.bufLen ∧ 0 < s.bufLen.toNat - 4 ∧
    bufRead s.buf 0 ≠ bufRead s'.buf 0 ∧
    (∀ x, x < s.bufLen.toNat - 4 → x ≠ 0 → bufRead s.buf x = bufRead s'.buf x) ∧ (∃ t, exec (.crcsign 0) s = .next t) ∧
    ∃ t, exec (.crcsign 0) s' = .next t :=
  ⟨rfl, rfl, by decide, by decide, rfl, by decide, by decide, by decide, ⟨_, rfl⟩, _, rfl⟩
theorem witness_ExtExtractsABitField : four.err = 0 ∧ 1 ≤ (32 : BitVec 6).toNat ∧ (32 : BitVec 6).toNat ≤ 32 ∧
    (0 : BitVec 10).toNat + (32 : BitVec 6).toNat ≤ 8 * four.bufLen.toNat ∧
    8 * four.bufLen.toNat < (1 : BitVec 10).toNat + (32 : BitVec 6).toNat ∧ (0 : BitVec 6).toNat = 0 ∧
    32 < (33 : BitVec 6).toNat := by decide
theorem witness_InjInjectsABitField : four.err = 0 ∧ 1 ≤ (8 : BitVec 6).toNat ∧ (8 : BitVec 6).toNat ≤ 8 ∧
    (255 : Byte).toNat < 2 ^ (8 : BitVec 6).toNat ∧ (24 : BitVec 10).toNat + (8 : BitVec 6).toNat ≤ 8 * four.bufLen.toNat ∧
    8 * four.bufLen.toNat < (25 : BitVec 10).toNat + (8 : BitVec 6).toNat ∧ (0 : BitVec 6).toNat = 0 ∧
    8 < (9 : BitVec 6).toNat ∧ 2 ^ (4 : BitVec 6).toNat ≤ (16 : Byte).toNat := by decide
theorem witness_BsetSetsBitsOfOneByte : four.err = 0 ∧ (3 : Byte).toNat < four.bufLen.toNat ∧
    four.bufLen.toNat ≤ (4 : Byte).toNat := by decide
theorem witness_ZfillZeroesAndSetsTheLength : four.err = 0 ∧ (78 : Byte).toNat ≤ 78 ∧ 78 < (79 : Byte).toNat := by decide
theorem witness_InjectThenExtractGivesTheValue : four.err = 0 ∧ 1 ≤ (8 : BitVec 6).toNat ∧ (8 : BitVec 6).toNat ≤ 8 ∧
    (255 : Byte).toNat < 2 ^ (8 : BitVec 6).toNat ∧ (24 : BitVec 10).toNat + (8 : BitVec 6).toNat ≤ 8 * four.bufLen.toNat ∧
    1 ≤ (24 : BitVec 6).toNat ∧ (24 : BitVec 6).toNat ≤ 32 ∧
    (0 : BitVec 10).toNat + (24 : BitVec 6).toNat ≤ 8 * four.bufLen.toNat ∧
    (0 : BitVec 10).toNat + (24 : BitVec 6).toNat ≤ (24 : BitVec 10).toNat := by decide
theorem witness_DecodeProjectsTheBuffer : received.err = 0 ∧ (received.tr = 0 ∧ 64 ≤ received.bufLen.toNat) ∧
    (let s := { State.reset with tr := 1, bufLen := 78 }; s.err = 0 ∧ s.tr = 1 ∧ 78 ≤ s.bufLen.toNat) ∧
    (let s := { State.reset with tr := 0, bufLen := 63 }; s.tr = 0 ∧ s.bufLen.toNat < 64) ∧
    (let s := { State.reset with tr := 1, bufLen := 77 }; s.tr = 1 ∧ s.bufLen.toNat < 78) ∧
    { State.reset with tr := 2 }.tr = 2 ∧ State.reset.tr = 3 := by decide
theorem witness_DecodeAgreesWithExt : received.err = 0 ∧
    ∃ t, exec .decode received = .next t ∧ t.err = 0 ∧ (264, 8, 5) ∈ inputFields t.inp :=
  ⟨rfl, _, rfl, by decide, by decide⟩
theorem witness_BatpctComputesThePercentage : { received with inValid := true }.err = 0 ∧
    { received with inValid := true }.inValid = true ∧ received.err = 0 ∧ received.inValid = false := by decide
theorem witness_EncodeOnUsbBuildsTheReport : (everyRegister 0).err = 0 ∧ (everyRegister 0).tr = 0 := by decide
theorem witness_EncodeOnBluetoothBuildsTheReport : (everyRegister 1).err = 0 ∧ (everyRegister 1).tr = 1 := by decide
theorem witness_EncodedFieldsReadBack : (everyRegister 0).err = 0 ∧ (everyRegister 0).tr = 0 ∧
    (46, 33, 7) ∈ reportRows ∧ (376 : BitVec 10).toNat = 8 * (1 + 46) ∧ (everyRegister 1).err = 0 ∧
    (everyRegister 1).tr = 1 ∧ (44, 31, 7) ∈ reportRows ∧ (376 : BitVec 10).toNat = 8 * (3 + 44) := by decide
theorem witness_EmptyBluetoothReportHasItsChecksum :
    let s := { State.reset with tr := 1 }
    s.err = 0 ∧ s.tr = 1 ∧ s.grpEn = 0 ∧ s.c[34] = 0 ∧ s.c[35] = 0 := by decide
theorem witness_FlagsFollowTheStatusTable : (everyRegister 1).err = 0 ∧
    (∃ t, exec .encode (everyRegister 1) = .next t ∧ t.err = 0) ∧ (∃ t, exec .encode (everyRegister 0) = .next t ∧ t.err = 0) ∧
    (∃ t, exec .decode received = .next t ∧ t.err = 0) ∧ ∃ t, exec (.ext 0 32) four = .next t ∧ t.err = 0 :=
  ⟨rfl, ⟨_, rfl, by decide⟩, ⟨_, rfl, by decide⟩, ⟨_, rfl, by decide⟩, _, rfl, by decide⟩
theorem witness_CommandInputAndTransportHaveTheirWriters : ∃ t, exec (.ext 0 32) four = .next t := ⟨_, rfl⟩
theorem witness_OnlyTheListedOperationsWriteTheBuffer :
    (∃ t, exec (.ext 0 32) four = .next t) ∧ ∃ t, exec .decode received = .next t := ⟨⟨_, rfl⟩, _, rfl⟩

/-- A block whose guarded registers hold something while their flags are 0. -/
def unguarded : State := { received with crcAcc := 5, crcRes := 6, xdata := 7, pct := 8 }

theorem witness_GuardedRegistersHoldNoValue : SameValues unguarded received ∧ unguarded ≠ received := by decide

/-- V19's end with an EXT to come: a signed report. -/
def signed : State :=
  { holding [0x98, 0x3F, 0x4A, 0x8D] with
    crcAcc := 0x72B5C067, crcRes := 0x8D4A3F98, crcSeeded := true, resValid := true, crcFresh := true
    host := ⟨[.command 0x20002000], 0, 0⟩ }

theorem signed_current : TrailerCurrent signed := ⟨by decide, 0, by decide, by decide +kernel⟩

theorem witness_StepKeepsTheBufferCanonical :
    BufferCanonical signed ∧ BufferInRange signed ∧ ∃ t, step signed = .next t := ⟨by decide, by decide, _, rfl⟩
theorem witness_StepKeepsFreshTrailersCurrent : FreshIsCurrent signed ∧ signed.crcFresh = true ∧ ∃ t, step signed = .next t :=
  ⟨fun _ => signed_current, rfl, _, rfl⟩

/-- P1's command with its ENCODE to come: LIGHTBAR and BRIGHT populated. -/
def command : State :=
  { obey 0x06001DFF (obey 0x06001FFF State.reset) with tr := 1, host := ⟨[.command 0x32000000], 0, 0⟩ }

theorem witness_StepKeepsUnpopulatedGroupsZero : UnpopulatedIsZero command ∧ command.c[31] = 0xFF ∧ command.grpEn = 0xA0 ∧
    ∃ t, step command = .next t := ⟨by decide +kernel, by decide, by decide, _, rfl⟩
theorem witness_StepKeepsFormedReportsLength :
    let s := { State.reset with tr := 0, bufLen := 63, formed := true, host := ⟨[.command 0x32000000], 0, 0⟩ }
    FormedHasItsLength s ∧ ∃ t, step s = .next t := ⟨by decide, _, rfl⟩
theorem witness_StepKeepsTouchIn12Bits :
    let s := { received with inValid := true, host := ⟨[.command 0x30000000], 0, 0⟩ }
    TouchIn12Bits s ∧ s.inValid = true ∧ ∃ t, step s = .next t := ⟨by decide, rfl, _, rfl⟩
theorem witness_StepKeepsErrRaisable :
    let s := { faulted 4 0x30000000 State.reset with host := ⟨[.command 0x01000000], 0, 0⟩ }
    ErrIsRaisable s ∧ InfoOnlyWithErr s ∧ ∃ t, step s = .next t := ⟨by decide, by decide, _, rfl⟩
theorem witness_StepKeepsFlagsNested :
    let s := { received with inValid := true, host := ⟨[.command 0x31000000], 0, 0⟩ }
    FlagsNested s ∧ ∃ t, step s = .next t := ⟨by decide, _, rfl⟩

/-- The empty USB report, formed (V58's end). -/
def formedUsb : State := { State.reset with tr := 0, bufLen := 63, formed := true }

/-- A Bluetooth report, signed. -/
def formedBt : State := { sign params 0 { State.reset with tr := 1, bufLen := 78 } with formed := true }

theorem formedBt_current : TrailerCurrent formedBt :=
  (trailerCurrent_congr rfl rfl).mp
    (trailerCurrent_sign (k := 0) (s := { State.reset with tr := 1, bufLen := 78 }) (by decide) (by decide))

theorem witness_ReadyReportIsWhole_usb :
    FormedHasItsLength formedUsb ∧ FreshIsCurrent formedUsb ∧ txReady formedUsb = true :=
  ⟨by decide, fun h => Bool.noConfusion h, by decide⟩
theorem witness_ReadyReportIsWhole_bt :
    FormedHasItsLength formedBt ∧ FreshIsCurrent formedBt ∧ txReady formedBt = true :=
  ⟨fun _ => .inr ⟨rfl, rfl⟩, fun _ => formedBt_current, rfl⟩

end Sys2Proof.Tests
end

/-! ## What an operation and a step can do

`operationChecks` and `operationEffect` name the two arguments of `perform` that each operation has, so that one inversion
lemma (`exec_cases`) and one invariant rule (`step_keeps`) serve every operation. -/

namespace Sys2Proof.Machine

/-! ### The checks and the effect of an operation -/

/-- An operation's own checks, in the order of R224; the operand ranges of R79 come before them. -/
def operationChecks (i : Instr) (s : State) : List (Bool × ErrKind) :=
  match i with
  | .crcbyte _ | .crcfin => [(s.crcSeeded, .notReady)]
  | .crcfeed a n => [(s.crcSeeded, .notReady), (runInBounds s a n, .truncatedBuffer)]
  | .crcput => [(s.resValid, .notReady), (hasTrailer s, .truncatedBuffer)]
  | .crcsign _ => [(hasTrailer s, .truncatedBuffer)]
  | .ext boff len | .inj boff len _ => [(fieldInBounds s boff len, .truncatedBuffer)]
  | .bset a _ => [(byteInBounds s a, .truncatedBuffer)]
  | .decode => [(hasLayout params s, .unsupportedTransport), (longEnough params s, .truncatedBuffer)]
  | .batpct => [(s.inValid, .notReady)]
  | .encode => [(hasLayout params s, .unsupportedTransport)]
  | .newcyc | .clrcmd | .settr _ | .setlen _ | .wrb _ _ | .wrc _ _ | .crcseed _ | .zfill _ => []

/-- The state an operation leaves when it completes. -/
def operationEffect (i : Instr) (s : State) : State :=
  match i with
  | .newcyc => newCycle s
  | .clrcmd => { s with c := Vector.replicate 36 0, grpEn := 0 }
  | .settr t => { s with tr := t, formed := false, crcFresh := false }
  | .setlen n => { s with bufLen := lengthOf n, formed := false, crcFresh := false }
  | .wrb a imm => { s with buf := bufWrite s.buf a.toNat imm, formed := false, crcFresh := false }
  | .wrc r imm => { s with c := setRegC s r.toNat imm, grpEn := populate s.grpEn r.toNat }
  | .crcseed k => { s with crcAcc := seedState params (seedByte params k), crcSeeded := true, resValid := false }
  | .crcbyte imm => { s with crcAcc := crcStep params s.crcAcc imm }
  | .crcfeed a n => { s with crcAcc := crcFeed params s.crcAcc (bufBytes s.buf a.toNat n.toNat) }
  | .crcfin => { s with crcRes := s.crcAcc ^^^ params.crcFinalXor, resValid := true }
  | .crcput => { s with buf := memWrite4 s.buf (s.bufLen.toNat - 4) s.crcRes, crcFresh := false }
  | .crcsign k => sign params k s
  | .ext boff len => { s with xdata := bitRead s.buf boff.toNat len.toNat, xValid := true }
  | .inj boff len imm => { s with buf := bitWrite s.buf boff.toNat len.toNat imm, crcFresh := false }
  | .bset a mask => { s with buf := bufWrite s.buf a.toNat (bufRead s.buf a.toNat ||| mask), crcFresh := false }
  | .zfill n => { s with buf := bufZero s.buf n.toNat, bufLen := lengthOf n, formed := false, crcFresh := false }
  | .decode => (layoutOf params s.tr).elim s (decodeEffect params · s)
  | .batpct => { s with pct := batteryPercent s.inp.status, pctValid := true }
  | .encode => (layoutOf params s.tr).elim s (encodeEffect params · s)

/-- `operationChecks` and `operationEffect` are the model's. -/
theorem exec_eq_perform {i : Instr} (h : i ≠ .newcyc) (s : State) :
    exec i s = perform params i (operationChecks i s) (operationEffect i) s := by
  cases i
  case newcyc => exact absurd rfl h
  case decode =>
    change runDecode params s = _
    unfold runDecode
    congr 1
    funext t
    unfold operationEffect
    cases layoutOf params t.tr <;> rfl
  case encode =>
    change runEncode params s = _
    unfold runEncode
    congr 1
    funext t
    unfold operationEffect
    cases layoutOf params t.tr <;> rfl
  all_goals rfl

/-! ### What an operation can do -/

/-- The operation takes effect: it is NEWCYC, or no error is pending, its operands are in range and its checks hold. -/
structure Completes (i : Instr) (s : State) : Prop where
  unlocked : i ≠ .newcyc → s.err = 0
  ranges : i.wellFormed = true
  checks : ∀ c ∈ operationChecks i s, c.1 = true

theorem exec_completes {i : Instr} {s : State} (h : Completes i s) : exec i s = .next (operationEffect i s) := by
  by_cases hi : i = .newcyc
  · subst hi; rfl
  · rw [exec_eq_perform hi, perform_completes (h.unlocked hi) h.ranges h.checks]

/-- The kinds that an operation raises (R221). -/
def raisedKinds : List ErrKind := [.illegalCommand, .notReady, .unsupportedTransport, .truncatedBuffer]

theorem operationChecks_kind (i : Instr) (s : State) : ∀ c ∈ operationChecks i s, c.2 ∈ raisedKinds := by
  cases i <;> simp [operationChecks, raisedKinds]

/-- Everything an operation can do: nothing, in lockout; a fault; or its effect. -/
theorem exec_cases {i : Instr} {s t : State} (h : exec i s = .next t) :
    (i ≠ .newcyc ∧ s.err ≠ 0 ∧ t = s) ∨
    (i ≠ .newcyc ∧ s.err = 0 ∧ ∃ k ∈ raisedKinds, t = raise params k (encode i) s) ∨
    (Completes i s ∧ t = operationEffect i s) := by
  by_cases hi : i = .newcyc
  · subst hi
    cases h
    exact .inr (.inr ⟨⟨fun hn => absurd rfl hn, rfl, fun c hc => by cases hc⟩, rfl⟩)
  · rw [exec_eq_perform hi] at h
    rcases perform_cases params i (operationChecks i s) (operationEffect i) s with
      ⟨h0, e⟩ | ⟨h0, k, hk, e⟩ | ⟨h0, hw, hc, e⟩ <;> (rw [e] at h; cases h)
    · exact .inl ⟨hi, h0, rfl⟩
    · refine .inr (.inl ⟨hi, h0, k, ?_, rfl⟩)
      obtain ⟨pre, post, hl, -⟩ := firstFailing_eq_some.mp hk
      have hm : (false, k) ∈ (inRange params i, .illegalCommand) :: operationChecks i s := by rw [hl]; simp
      rcases List.mem_cons.mp hm with he | hm
      · rw [(Prod.mk.inj he).2]; decide
      · exact operationChecks_kind i s _ hm
    · exact .inr (.inr ⟨⟨fun _ => h0, hw, hc⟩, rfl⟩)

/-- The codes that an operation puts in ERR (R220). -/
theorem errCode_of_raisedKinds {k : ErrKind} (h : k ∈ raisedKinds) :
    params.errCode k = 4 ∨ params.errCode k = 5 ∨ params.errCode k = 7 ∨ params.errCode k = 8 := by
  revert k; decide

theorem errCode_ne_zero {k : ErrKind} (h : k ∈ raisedKinds) : params.errCode k ≠ 0 := by
  rcases errCode_of_raisedKinds h with h | h | h | h <;> rw [h] <;> decide

/-- An operation that ends with ERR = 0 took effect. -/
theorem completes_of_err_zero {i : Instr} {s t : State} (h : exec i s = .next t) (ht : t.err = 0) :
    Completes i s ∧ t = operationEffect i s := by
  rcases exec_cases h with ⟨-, h0, rfl⟩ | ⟨-, -, k, hk, rfl⟩ | hc
  · exact absurd ht h0
  · exact absurd ht (errCode_ne_zero hk)
  · exact hc

/-- DECODE and ENCODE complete under a layout only (R190). -/
theorem exists_layout_of_hasLayout {s : State} (h : hasLayout params s = true) :
    ∃ L, layoutOf params s.tr = some L := Option.isSome_iff_exists.mp h

/-- The USB row of R190. -/
def usbLayout : Layout := ⟨64, 1, 63, 0x02, 1, false⟩

/-- The Bluetooth row of R190. -/
def btLayout : Layout := ⟨78, 1, 78, 0x31, 3, true⟩

/-- The layouts of R190 are these two. -/
theorem layoutOf_params_cases {tr : BitVec 2} {L : Layout} (h : layoutOf params tr = some L) :
    (tr = 0 ∧ L = usbLayout) ∨ (tr = 1 ∧ L = btLayout) := by
  rw [layoutOf_params] at h
  split at h
  · exact .inl ⟨‹_›, (Option.some.inj h).symm⟩
  · split at h
    · exact .inr ⟨‹_›, (Option.some.inj h).symm⟩
    · cases h

/-! ### What a step can do -/

/-- The rule for invariants: what is no business of the host's side, and is kept by fault entry, by the reset event and by
the effect of every operation that completes, is kept by every step. -/
theorem step_keeps {Q : State → Prop} (hhost : ∀ s host, Q s → Q { s with host := host })
    (hraise : ∀ s, ∀ k ∈ raisedKinds, ∀ w, Q s → Q (raise params k w s)) (hreset : ∀ s, Q (resetEvent s))
    (heffect : ∀ i s, Completes i s → Q s → Q (operationEffect i s)) {s t : State} (hs : Q s)
    (h : step s = .next t) : Q t := by
  match hscript : s.host.script with
  | [] => rw [step_idle hscript] at h; cases h; exact hs
  | .observe r :: rest => rw [step_observe hscript] at h; cases h; exact hhost (advance rest s) _ (hhost s _ hs)
  | .reset :: rest => rw [step_reset hscript] at h; cases h; exact hreset _
  | .command w :: rest =>
    rw [step_command hscript] at h
    have ha : Q (advance rest s) := hhost s _ hs
    cases hd : decode w with
    | ok i =>
      rw [issue_of_ok hd] at h
      rcases exec_cases h with ⟨-, -, rfl⟩ | ⟨-, -, k, hk, rfl⟩ | ⟨hc, rfl⟩
      · exact ha
      · exact hraise _ k hk _ ha
      · exact heffect i _ hc ha
    | error r =>
      by_cases h0 : (advance rest s).err = 0
      · rw [issue_of_error hd h0] at h; cases h; exact hraise _ _ (by decide) _ ha
      · rw [issue_of_error_locked hd h0] at h; cases h; exact ha

end Sys2Proof.Machine

/-! ## The step, the reset, and what every step keeps -/

namespace Sys2Proof.Machine

/-! ### The step and the reset -/

/-- Settles O8. -/
theorem stepRunsTheDecodedOperation : Obligations.StepRunsTheDecodedOperation :=
  fun s _ rest _ hs hd => (step_command hs).trans (issue_of_ok hd (advance rest s))

/-- Every command word is answered by a next state, and the host's side is as before (R24, R120). -/
theorem issue_next (w : Word) (s : State) : ∃ t, issue w s = .next t ∧ t.host = s.host := by
  cases hd : decode w with
  | ok i => rw [issue_of_ok hd]; exact exec_next i s
  | error r =>
    by_cases h0 : s.err = 0
    · exact ⟨_, issue_of_error hd h0, rfl⟩
    · exact ⟨_, issue_of_error_locked hd h0, rfl⟩

/-- Settles O11, by cases on the host's next event. -/
theorem everyStepConsumesOneEvent : Obligations.EveryStepConsumesOneEvent := by
  intro s
  match hscript : s.host.script with
  | [] => exact ⟨s, step_idle hscript, hscript, fun _ => rfl⟩
  | .observe _ :: _ => exact ⟨_, step_observe hscript, rfl, nofun⟩
  | .reset :: _ => exact ⟨_, step_reset hscript, rfl, nofun⟩
  | .command w :: rest =>
    obtain ⟨t, ht, hh⟩ := issue_next w (advance rest s)
    exact ⟨t, (step_command hscript).trans ht, by rw [hh]; rfl, nofun⟩

/-- C is 0 at reset (R38). -/
theorem reset_c (r : Fin 36) : State.reset.c[r] = 0 := Vector.getElem_replicate _

/-- STATUS is 0 at a reset event too, since its fields are those of `State.reset`. -/
theorem statusByte_resetEvent (s : State) : statusByte (resetEvent s) = 0 :=
  calc statusByte (resetEvent s) = statusByte State.reset := rfl
    _ = 0 := rfl

/-- Settles O13: the reset event gives the block's fields the values of `State.reset`. -/
theorem resetGivesTheValuesOfItsTable : Obligations.ResetGivesTheValuesOfItsTable :=
  ⟨⟨reset_c, rfl, rfl, rfl, rfl, rfl, rfl, rfl⟩,
    fun _ _ hs => ⟨_, step_reset hs, reset_c, rfl, rfl, rfl, rfl, rfl, statusByte_resetEvent _, rfl, rfl⟩⟩

/-! ### The invariants at reset -/

/-- R208 holds of a block whose registers are all 0. -/
theorem unpopulatedIsZero_of_c_zero {s : State} (h : ∀ r : Fin 36, s.c[r] = 0) : UnpopulatedIsZero s :=
  fun r _ _ _ _ => (regC_eq s r.isLt).trans (h r)

/-- Settles O59: each flag that an invariant is about is 0 at reset, and so is every register. -/
theorem invariantsHoldAtReset : Obligations.InvariantsHoldAtReset :=
  ⟨rfl, ⟨Nat.zero_le _, nofun⟩, nofun, unpopulatedIsZero_of_c_zero reset_c, nofun, nofun, .inl rfl, fun _ => rfl, nofun,
    nofun⟩

/-! ### The buffer's form (R28, R35) -/

/-- A length operand in range is what BUF_LEN becomes (R79, R124, R174). -/
theorem lengthOf_toNat {n : Byte} (h : n.toNat ≤ 78) : (lengthOf n).toNat = n.toNat := by
  rw [lengthOf, BitVec.toNat_setWidth]
  exact Nat.mod_eq_of_lt (by omega)

/-- ENCODE keeps the buffer's form under either layout (R205). -/
theorem encodeEffect_buffer {s : State} {L : Layout} (hL : layoutOf params s.tr = some L) (hc : BufferCanonical s)
    (hr : BufferInRange s) : BufferCanonical (encodeEffect params L s) ∧ BufferInRange (encodeEffect params L s) := by
  have hwf := encodeReport_wf params L hc
  have hbelow := encodeReport_below hL hr.2
  have h78 : 4 ≤ (78 : BufLen).toNat ∧ (78 : BufLen).toNat ≤ 78 := by decide
  rcases layoutOf_params_cases hL with ⟨-, rfl⟩ | ⟨-, rfl⟩
  · exact ⟨hwf, by rw [encodeEffect_bufLen]; decide, hbelow⟩
  · exact ⟨sign_wf params 0 (s := { s with buf := _, bufLen := 78 }) hwf, by rw [encodeEffect_bufLen]; decide,
      sign_below params 0 (s := { s with buf := _, bufLen := 78 }) h78.1 h78.2 hbelow⟩

/-- Each operation writes BUF below BUF_LEN or below an operand that R79 bounds, and BUF_LEN within R28's bound. -/
theorem operationEffect_buffer {i : Instr} {s : State} (h : Completes i s) (hs : BufferCanonical s ∧ BufferInRange s) :
    BufferCanonical (operationEffect i s) ∧ BufferInRange (operationEffect i s) := by
  obtain ⟨hc, hlen, hbelow⟩ := hs
  obtain ⟨-, hw, hchecks⟩ := h
  cases i with
  | newcyc => exact ⟨hc, Nat.zero_le _, hbelow⟩
  | clrcmd | settr | wrc | crcseed | crcbyte | crcfeed | crcfin | ext | batpct => exact ⟨hc, hlen, hbelow⟩
  | setlen n =>
    have hn : n.toNat ≤ 78 := of_decide_eq_true hw
    exact ⟨hc, (lengthOf_toNat hn).le.trans hn, hbelow⟩
  | zfill n =>
    have hn : n.toNat ≤ 78 := of_decide_eq_true hw
    exact ⟨bufZero_wf _ hc, (lengthOf_toNat hn).le.trans hn, bufZero_below hn hbelow⟩
  | wrb a v => exact ⟨bufWrite_wf _ _ hc, hlen, bufWrite_below _ (of_decide_eq_true hw) hbelow⟩
  | bset a m =>
    have ha : a.toNat < s.bufLen.toNat := by simpa [operationChecks, byteInBounds] using hchecks
    exact ⟨bufWrite_wf _ _ hc, hlen, bufWrite_below _ (ha.trans_le hlen) hbelow⟩
  | inj b l v =>
    have hb : b.toNat + l.toNat ≤ 8 * s.bufLen.toNat := by simpa [operationChecks, fieldInBounds] using hchecks
    exact ⟨bitWrite_wf _ _ _ hc, hlen, bitWrite_below _ (by omega) hbelow⟩
  | crcput =>
    have h4 : 4 ≤ s.bufLen.toNat :=
      of_decide_eq_true (hchecks (hasTrailer s, _) (List.mem_cons_of_mem _ List.mem_cons_self))
    exact ⟨memWrite4_wf _ _ hc, hlen, memWrite4_below _ (by omega) hbelow⟩
  | crcsign k =>
    have h4 : 4 ≤ s.bufLen.toNat := by simpa [operationChecks, hasTrailer] using hchecks
    exact ⟨sign_wf _ _ hc, hlen, sign_below _ _ h4 hlen hbelow⟩
  | decode =>
    simp only [operationEffect]
    cases layoutOf params s.tr <;> exact ⟨hc, hlen, hbelow⟩
  | encode =>
    simp only [operationEffect]
    cases hL : layoutOf params s.tr with
    | none => exact ⟨hc, hlen, hbelow⟩
    | some L => exact encodeEffect_buffer hL hc ⟨hlen, hbelow⟩

/-- Settles O52. -/
theorem stepKeepsTheBufferCanonical : Obligations.StepKeepsTheBufferCanonical :=
  fun _ _ hc hr h => step_keeps (Q := fun s => BufferCanonical s ∧ BufferInRange s) (fun _ _ hs => hs)
    (fun _ _ _ _ hs => hs) (fun _ => ⟨rfl, Nat.zero_le _, nofun⟩) (fun _ _ => operationEffect_buffer) ⟨hc, hr⟩ h

/-! ### The length of a formed report (R25, R205) -/

/-- An operation that changes TR or BUF_LEN clears FORMED, but for ENCODE, which sets all three (R25, R205). -/
theorem operationEffect_formed {i : Instr} {s : State} (h : Completes i s) (hs : FormedHasItsLength s) :
    FormedHasItsLength (operationEffect i s) := by
  cases i with
  | newcyc | settr | setlen | wrb | zfill => nofun
  | clrcmd | wrc | crcseed | crcbyte | crcfeed | crcfin | crcput | crcsign | ext | inj | bset | batpct => exact hs
  | decode =>
    simp only [operationEffect]
    cases layoutOf params s.tr <;> exact hs
  | encode =>
    obtain ⟨L, hL⟩ := exists_layout_of_hasLayout (h.checks _ List.mem_cons_self)
    simp only [operationEffect, hL, Option.elim_some, FormedHasItsLength, encodeEffect_tr, encodeEffect_bufLen]
    intro _
    rcases layoutOf_params_cases hL with ⟨htr, rfl⟩ | ⟨htr, rfl⟩
    · exact .inl ⟨htr, rfl⟩
    · exact .inr ⟨htr, rfl⟩

/-- Settles O55. -/
theorem stepKeepsFormedReportsLength : Obligations.StepKeepsFormedReportsLength :=
  fun _ _ hs h => step_keeps (Q := FormedHasItsLength) (fun _ _ hs => hs) (fun _ _ _ _ hs => hs) (fun _ => nofun)
    (fun _ _ => operationEffect_formed) hs h

/-! ### The touch coordinates (R33, R196) -/

/-- DECODE puts 12 bits in each coordinate (R100, R191). -/
theorem decodeTouch_le (b : Buffer) (p : Nat) :
    (decodeTouch b p).x.toNat ≤ 4095 ∧ (decodeTouch b p).y.toNat ≤ 4095 := by
  have h1 := (bufRead b (p + 1)).isLt
  have h3 := (bufRead b (p + 3)).isLt
  have hlow : (bufRead b (p + 2) &&& 0x0F).toNat ≤ 15 := by simpa using Nat.and_le_right
  have hhigh : (bufRead b (p + 2) >>> 4).toNat ≤ 15 := by
    rw [BitVec.toNat_ushiftRight, Nat.shiftRight_eq_div_pow]; omega
  simp only [decodeTouch, BitVec.toNat_or, BitVec.toNat_shiftLeft, BitVec.toNat_setWidth, Nat.shiftLeft_eq]
  exact ⟨Nat.le_of_lt_succ (Nat.or_lt_two_pow (n := 12) (by omega) (by omega)),
    Nat.le_of_lt_succ (Nat.or_lt_two_pow (n := 12) (by omega) (by omega))⟩

/-- DECODE alone writes the IN file. -/
theorem operationEffect_touch {i : Instr} {s : State} (hs : TouchIn12Bits s) : TouchIn12Bits (operationEffect i s) := by
  cases i with
  | newcyc => nofun
  | clrcmd | settr | setlen | wrb | wrc | crcseed | crcbyte | crcfeed | crcfin | crcput | crcsign | ext | inj | bset
  | zfill | batpct => exact hs
  | decode =>
    simp only [operationEffect]
    cases layoutOf params s.tr with
    | none => exact hs
    | some L =>
      intro _ n
      match n with
      | 0 => exact decodeTouch_le _ _
      | 1 => exact decodeTouch_le _ _
  | encode =>
    simp only [operationEffect]
    cases layoutOf params s.tr with
    | none => exact hs
    | some L => simpa only [TouchIn12Bits, Option.elim_some, encodeEffect_inValid, encodeEffect_inp] using hs

/-- Settles O56. -/
theorem stepKeepsTouchIn12Bits : Obligations.StepKeepsTouchIn12Bits :=
  fun _ _ hs h => step_keeps (Q := TouchIn12Bits) (fun _ _ hs => hs) (fun _ _ _ _ hs => hs) (fun _ => nofun)
    (fun _ _ _ => operationEffect_touch) hs h

/-! ### ERR and ERR_INFO (R29, R220) -/

/-- An operation that completes leaves ERR and ERR_INFO alone; NEWCYC clears both (R121, R228). -/
theorem operationEffect_err {i : Instr} (hi : i ≠ .newcyc) (s : State) :
    (operationEffect i s).err = s.err ∧ (operationEffect i s).errInfo = s.errInfo := by
  cases i with
  | newcyc => exact absurd rfl hi
  | decode | encode => simp only [operationEffect]; cases layoutOf params s.tr <;> simp
  | _ => exact ⟨rfl, rfl⟩

/-- Settles O57: a fault stores one of R221's codes, and nothing else but NEWCYC and a reset writes the two registers. -/
theorem stepKeepsErrRaisable : Obligations.StepKeepsErrRaisable := by
  refine fun _ _ he hi h => step_keeps (Q := fun s => ErrIsRaisable s ∧ InfoOnlyWithErr s) (fun _ _ hs => hs)
    (fun _ k hk _ _ => ⟨.inr (errCode_of_raisedKinds hk), fun h0 => absurd h0 (errCode_ne_zero hk)⟩)
    (fun _ => ⟨.inl rfl, fun _ => rfl⟩) (fun i s _ hs => ?_) ⟨he, hi⟩ h
  by_cases hn : i = .newcyc
  · subst hn
    exact ⟨.inl rfl, fun _ => rfl⟩
  · simpa only [ErrIsRaisable, InfoOnlyWithErr, operationEffect_err hn] using hs

/-! ### Nested flags (R25) -/

/-- PCT_VALID is set where IN_VALID is checked, RES_VALID where CRC_SEEDED is checked or set. -/
theorem operationEffect_flagsNested {i : Instr} {s : State} (h : Completes i s) (hs : FlagsNested s) :
    FlagsNested (operationEffect i s) := by
  obtain ⟨hpct, hres⟩ := hs
  cases i with
  | newcyc => exact ⟨nofun, nofun⟩
  | clrcmd | settr | setlen | wrb | wrc | crcbyte | crcfeed | crcput | ext | inj | bset | zfill => exact ⟨hpct, hres⟩
  | crcseed => exact ⟨hpct, nofun⟩
  | crcfin => exact ⟨hpct, fun _ => h.checks _ List.mem_cons_self⟩
  | crcsign => exact ⟨hpct, fun _ => rfl⟩
  | batpct => exact ⟨fun _ => h.checks _ List.mem_cons_self, hres⟩
  | decode =>
    simp only [operationEffect]
    cases layoutOf params s.tr with
    | none => exact ⟨hpct, hres⟩
    | some L => exact ⟨nofun, hres⟩
  | encode =>
    simp only [operationEffect]
    cases hL : layoutOf params s.tr with
    | none => exact ⟨hpct, hres⟩
    | some L =>
      rcases layoutOf_params_cases hL with ⟨-, rfl⟩ | ⟨-, rfl⟩
      · exact ⟨hpct, hres⟩
      · exact ⟨hpct, fun _ => rfl⟩

/-- Settles O58. -/
theorem stepKeepsFlagsNested : Obligations.StepKeepsFlagsNested :=
  fun _ _ hs h => step_keeps (Q := FlagsNested) (fun _ _ hs => hs) (fun _ _ _ _ hs => hs) (fun _ => ⟨nofun, nofun⟩)
    (fun _ _ => operationEffect_flagsNested) hs h

end Sys2Proof.Machine

/-! ## Flags, writers, and registers that hold no value -/

namespace Sys2Proof.Machine

/-! ### What each operation writes -/

/-- What a fault does not write, an operation leaves as it was if its effect does. -/
theorem exec_preserves {α : Type} {f : State → α} (hraise : ∀ k w s, f (raise params k w s) = f s) {i : Instr}
    {s t : State} (h : exec i s = .next t) (heffect : f (operationEffect i s) = f s) : f t = f s := by
  rcases exec_cases h with ⟨-, -, rfl⟩ | ⟨-, -, k, -, rfl⟩ | ⟨-, rfl⟩
  · rfl
  · exact hraise k _ s
  · exact heffect

/-- C and GRP_EN are written by CLRCMD and WRC alone (R21, R23). -/
theorem operationEffect_command {i : Instr} (hc : i ≠ .clrcmd) (hw : ∀ r v, i ≠ .wrc r v) (s : State) :
    (operationEffect i s).c = s.c ∧ (operationEffect i s).grpEn = s.grpEn := by
  cases i with
  | clrcmd => exact absurd rfl hc
  | wrc r v => exact absurd rfl (hw r v)
  | decode | encode => simp only [operationEffect]; cases layoutOf params s.tr <;> simp
  | _ => exact ⟨rfl, rfl⟩

/-- The IN file is written by DECODE alone (R33; for NEWCYC log 11). -/
theorem operationEffect_inp {i : Instr} (h : i ≠ .decode) (s : State) : (operationEffect i s).inp = s.inp := by
  cases i with
  | decode => exact absurd rfl h
  | encode => simp only [operationEffect]; cases layoutOf params s.tr <;> simp
  | _ => rfl

/-- TR is written by SETTR alone (R27). -/
theorem operationEffect_tr {i : Instr} (h : ∀ v, i ≠ .settr v) (s : State) : (operationEffect i s).tr = s.tr := by
  cases i with
  | settr v => exact absurd rfl (h v)
  | decode | encode => simp only [operationEffect]; cases layoutOf params s.tr <;> simp
  | _ => rfl

/-- Settles O48. -/
theorem commandInputAndTransportHaveTheirWriters : Obligations.CommandInputAndTransportHaveTheirWriters :=
  fun _ s _ h =>
    ⟨fun hc hw => ⟨exec_preserves (f := State.c) (fun _ _ _ => rfl) h (operationEffect_command hc hw s).1,
        exec_preserves (f := State.grpEn) (fun _ _ _ => rfl) h (operationEffect_command hc hw s).2⟩,
      fun hd => exec_preserves (f := State.inp) (fun _ _ _ => rfl) h (operationEffect_inp hd s),
      fun ht => exec_preserves (f := State.tr) (fun _ _ _ => rfl) h (operationEffect_tr ht s)⟩

/-! ### STATUS (R25, R26) -/

/-- Bit 7 of STATUS in R26's words. -/
theorem txReady_iff (s : State) :
    txReady s = true ↔ s.err = 0 ∧ s.formed = true ∧ (s.tr = 0 ∨ (s.tr = 1 ∧ s.crcFresh = true)) := by
  simp only [txReady, txReadyWith, Bool.and_eq_true, Bool.or_eq_true, decide_eq_true_eq, and_assoc]
  exact Iff.rfl

/-- The bits of STATUS by their numbers (R25). -/
theorem getLsbD_statusByte (s : State) :
    (statusByte s).getLsbD 0 = s.inValid ∧ (statusByte s).getLsbD 1 = s.pctValid ∧
    (statusByte s).getLsbD 2 = s.xValid ∧ (statusByte s).getLsbD 3 = s.crcSeeded ∧
    (statusByte s).getLsbD 4 = s.resValid ∧ (statusByte s).getLsbD 5 = s.formed ∧
    (statusByte s).getLsbD 6 = s.crcFresh ∧ (statusByte s).getLsbD 7 = txReady s := by
  have hbits : ∀ b₇ b₆ b₅ b₄ b₃ b₂ b₁ b₀ : Bool,
      let v : Byte := BitVec.ofBool b₇ ++ (BitVec.ofBool b₆ ++ (BitVec.ofBool b₅ ++ (BitVec.ofBool b₄ ++
        (BitVec.ofBool b₃ ++ (BitVec.ofBool b₂ ++ (BitVec.ofBool b₁ ++ BitVec.ofBool b₀))))))
      v.getLsbD 0 = b₀ ∧ v.getLsbD 1 = b₁ ∧ v.getLsbD 2 = b₂ ∧ v.getLsbD 3 = b₃ ∧
      v.getLsbD 4 = b₄ ∧ v.getLsbD 5 = b₅ ∧ v.getLsbD 6 = b₆ ∧ v.getLsbD 7 = b₇ := by decide
  exact hbits ..

/-- Settles O47: an operation that ends with ERR = 0 completed, and its effect is R25's row. -/
theorem flagsFollowTheStatusTable : Obligations.FlagsFollowTheStatusTable := by
  constructor
  · intro s
    obtain ⟨h0, h1, h2, h3, h4, h5, h6, h7⟩ := getLsbD_statusByte s
    exact ⟨h0, h1, h2, h3, h4, h5, h6, by rw [h7]; exact txReady_iff s⟩
  · intro i s t _ h ht
    obtain ⟨hc, rfl⟩ := completes_of_err_zero h ht
    cases i with
    | decode =>
      obtain ⟨L, hL⟩ := exists_layout_of_hasLayout (hc.checks _ List.mem_cons_self)
      simp only [operationEffect, hL]
      exact ⟨rfl, rfl, rfl, rfl, rfl, rfl, rfl⟩
    | encode =>
      obtain ⟨L, hL⟩ := exists_layout_of_hasLayout (hc.checks _ List.mem_cons_self)
      simp only [operationEffect, hL]
      rcases layoutOf_params_cases hL with ⟨htr, rfl⟩ | ⟨htr, rfl⟩ <;> simp only [htr] <;>
        exact ⟨rfl, rfl, rfl, rfl, rfl, rfl, rfl⟩
    | _ => exact ⟨rfl, rfl, rfl, rfl, rfl, rfl, rfl⟩

/-! ### Registers that hold no value (R37) -/

/-- The state with other contents in the registers that flags guard, and another host. -/
def withGuarded (s : State) (crcAcc crcRes xdata : Word) (pct : Byte) (inp : InRegs) (host : HostSide) : State :=
  { s with crcAcc := crcAcc, crcRes := crcRes, xdata := xdata, pct := pct, inp := inp, host := host }

/-- `SameValues` says no more than that the guarded registers agree while their flags are 1. -/
theorem sameValues_withGuarded {s : State} {acc res x : Word} {pct : Byte} {inp : InRegs} {host : HostSide}
    (hacc : s.crcSeeded = true → s.crcAcc = acc) (hres : s.resValid = true → s.crcRes = res)
    (hx : s.xValid = true → s.xdata = x) (hpct : s.pctValid = true → s.pct = pct)
    (hinp : s.inValid = true → s.inp = inp) : SameValues s (withGuarded s acc res x pct inp host) :=
  ⟨rfl, rfl, rfl, rfl, rfl, rfl, rfl, rfl, rfl, rfl, rfl, rfl, rfl, rfl, hacc, hres, hx, hpct, hinp⟩

/-- A state of the same values is the state with other contents in its guarded registers. -/
theorem SameValues.eq_withGuarded {s t : State} (h : SameValues s t) :
    t = withGuarded s t.crcAcc t.crcRes t.xdata t.pct t.inp t.host := by
  obtain ⟨h1, h2, h3, h4, h5, h6, h7, h8, h9, h10, h11, h12, h13, h14, -⟩ := h
  simp only [withGuarded, h1, h2, h3, h4, h5, h6, h7, h8, h9, h10, h11, h12, h13, h14]

/-- An observation hands over a guarded register's content while its flag is 1 only (R37, R127). -/
theorem guarded_congr {flag : Bool} {v w : Word} (h : flag = true → v = w) (draw : Word) :
    guarded flag v draw = guarded flag w draw := by
  cases flag
  · rfl
  · exact h rfl

/-- No observation depends on a register that holds no value. -/
theorem observe_sameValues {s t : State} (h : SameValues s t) (r : ObsName) (n : Nat) :
    observe r n s = observe r n t := by
  rw [h.eq_withGuarded]
  obtain ⟨-, -, -, -, -, -, -, -, -, -, -, -, -, -, hacc, hres, hx, hpct, hinp⟩ := h
  cases r with
  | c | grpEn | tr | bufLen | status | err | errInfo | buf => rfl
  | crcAcc => exact guarded_congr hacc _
  | crcRes => exact guarded_congr hres _
  | xdata => exact guarded_congr hx _
  | pct => exact guarded_congr (fun hv => congrArg (BitVec.setWidth 32) (hpct hv)) _
  | _ => exact guarded_congr (fun hv => by rw [hinp hv]; rfl) _

/-- The checks read no register that a flag guards (R221). -/
theorem operationChecks_withGuarded (i : Instr) (s : State) (acc res x : Word) (pct : Byte) (inp : InRegs)
    (host : HostSide) : operationChecks i (withGuarded s acc res x pct inp host) = operationChecks i s := by
  cases i <;> rfl

/-- An effect reads a guarded register only where a check has found its flag to be 1. -/
theorem operationEffect_sameValues {i : Instr} {s t : State} (hc : Completes i s) (h : SameValues s t) :
    SameValues (operationEffect i s) (operationEffect i t) := by
  rw [h.eq_withGuarded]
  obtain ⟨-, -, -, -, -, -, -, -, -, -, -, -, -, -, hacc, hres, hx, hpct, hinp⟩ := h
  cases i with
  | newcyc => exact sameValues_withGuarded nofun nofun nofun nofun nofun
  | clrcmd | settr | setlen | wrb | wrc | inj | bset | zfill => exact sameValues_withGuarded hacc hres hx hpct hinp
  | crcseed k => exact sameValues_withGuarded (fun _ => rfl) nofun hx hpct hinp
  | crcbyte v => exact sameValues_withGuarded (fun hv => congrArg (crcStep params · v) (hacc hv)) hres hx hpct hinp
  | crcfeed a n =>
    exact sameValues_withGuarded (fun hv => congrArg (crcFeed params · (bufBytes s.buf a.toNat n.toNat)) (hacc hv))
      hres hx hpct hinp
  | crcfin =>
    have hseeded : s.crcSeeded = true := hc.checks _ List.mem_cons_self
    exact sameValues_withGuarded hacc (fun _ => congrArg (· ^^^ params.crcFinalXor) (hacc hseeded)) hx hpct hinp
  | crcput =>
    have hvalid : s.resValid = true := hc.checks _ List.mem_cons_self
    rw [← hres hvalid]
    exact sameValues_withGuarded hacc (fun _ => rfl) hx hpct hinp
  | crcsign => exact sameValues_withGuarded (fun _ => rfl) (fun _ => rfl) hx hpct hinp
  | ext => exact sameValues_withGuarded hacc hres (fun _ => rfl) hpct hinp
  | batpct =>
    have hvalid : s.inValid = true := hc.checks _ List.mem_cons_self
    rw [← hinp hvalid]
    exact sameValues_withGuarded hacc hres hx (fun _ => rfl) (fun _ => rfl)
  | decode =>
    obtain ⟨L, hL⟩ := exists_layout_of_hasLayout (hc.checks _ List.mem_cons_self)
    simp only [operationEffect, withGuarded, hL]
    exact sameValues_withGuarded hacc hres hx nofun (fun _ => rfl)
  | encode =>
    obtain ⟨L, hL⟩ := exists_layout_of_hasLayout (hc.checks _ List.mem_cons_self)
    simp only [operationEffect, withGuarded, hL]
    rcases layoutOf_params_cases hL with ⟨-, rfl⟩ | ⟨-, rfl⟩
    · exact sameValues_withGuarded hacc hres hx hpct hinp
    · exact sameValues_withGuarded (fun _ => rfl) (fun _ => rfl) hx hpct hinp

theorem Completes.sameValues {i : Instr} {s t : State} (hc : Completes i s) (h : SameValues s t) : Completes i t := by
  rw [h.eq_withGuarded]
  exact ⟨hc.unlocked, hc.ranges, by rw [operationChecks_withGuarded]; exact hc.checks⟩

theorem raise_sameValues (k : ErrKind) (w : Word) {s t : State} (h : SameValues s t) :
    SameValues (raise params k w s) (raise params k w t) := by
  rw [h.eq_withGuarded]
  obtain ⟨-, -, -, -, -, -, -, -, -, -, -, -, -, -, hacc, hres, hx, hpct, hinp⟩ := h
  exact sameValues_withGuarded hacc hres hx hpct hinp

/-- Lockout, the failing check and the effect are the same of both states (R224, R227). -/
theorem exec_sameValues (i : Instr) {s t : State} (h : SameValues s t) :
    ∃ s' t', exec i s = .next s' ∧ exec i t = .next t' ∧ SameValues s' t' := by
  obtain ⟨s', hs, -⟩ := exec_next i s
  have herr : t.err = s.err := by rw [h.eq_withGuarded]; rfl
  have hchecks : operationChecks i t = operationChecks i s := by
    rw [h.eq_withGuarded, operationChecks_withGuarded]
  by_cases hi : i = .newcyc
  · subst hi
    exact ⟨_, _, rfl, rfl, operationEffect_sameValues ⟨absurd rfl, rfl, nofun⟩ h⟩
  rcases perform_cases params i (operationChecks i s) (operationEffect i) s with
    ⟨h0, e⟩ | ⟨h0, k, hk, e⟩ | ⟨h0, hw, hc, e⟩ <;> rw [← exec_eq_perform hi] at e
  · exact ⟨s, t, e, exec_locked hi (herr ▸ h0), h⟩
  · refine ⟨_, _, e, ?_, raise_sameValues k _ h⟩
    rw [exec_eq_perform hi, perform, hchecks, hk, herr, if_neg (not_not.mpr h0)]
  · have hs : Completes i s := ⟨fun _ => h0, hw, hc⟩
    exact ⟨_, _, e, exec_completes (hs.sameValues h), operationEffect_sameValues hs h⟩

/-- Settles O51. -/
theorem guardedRegistersHoldNoValue : Obligations.GuardedRegistersHoldNoValue :=
  fun _ _ h => ⟨observe_sameValues h, fun i => exec_sameValues i h⟩

end Sys2Proof.Machine

/-! ## ENCODE, byte by byte (R205)

ENCODE's groups act on each byte of the report apart: `groupByte` is what one group does to the byte at one offset of the
common command fields, so that a byte of the report is a fold of eight such functions over the byte that the header left.
Which group acts on which byte is then a closed fact about the tables of R106 and R108. -/

namespace Sys2Proof.Machine

/-! ### Byte writes at the offsets of a list of registers -/

/-- Writing registers at places other than x leaves the byte at x. -/
theorem bufRead_writes_of_ne {rs : List Nat} {place : Nat → Nat} {x : Nat} (value : Nat → Byte)
    (h : ∀ r ∈ rs, place r ≠ x) (b : Buffer) :
    bufRead (rs.foldl (fun b r => bufWrite b (place r) (value r)) b) x = bufRead b x := by
  induction rs generalizing b with
  | nil => rfl
  | cons r rs ih =>
    rw [List.foldl_cons, ih fun q hq => h q (List.mem_cons_of_mem r hq),
      bufRead_bufWrite_ne _ _ (h r List.mem_cons_self).symm]

/-- Writing distinct registers at distinct places puts each at its own. -/
theorem bufRead_writes_of_mem {rs : List Nat} {place : Nat → Nat} (value : Nat → Byte)
    (hplace : rs.Pairwise fun r q => place r ≠ place q) {r : Nat} (hr : r ∈ rs) (b : Buffer) :
    bufRead (rs.foldl (fun b r => bufWrite b (place r) (value r)) b) (place r) = value r := by
  induction rs generalizing b with
  | nil => cases hr
  | cons q rs ih =>
    obtain ⟨hq, hrs⟩ := List.pairwise_cons.mp hplace
    rcases List.mem_cons.mp hr with rfl | hr
    · rw [List.foldl_cons, bufRead_writes_of_ne value fun p hp => (hq p hp).symm, bufRead_bufWrite_same]
    · exact ih hrs hr _

/-! ### One group -/

/-- The register that a group puts at an offset of the common command fields, if it puts one there (R106). -/
def registerAt (g : Group) (o : Nat) : Option Nat := (groupRegs g).find? fun r => outOffset params r = o

/-- What a group of R205's loop does to the byte v at offset o of the common command fields. -/
def groupByte (s : State) (o : Nat) (v : Byte) (g : Group) : Byte :=
  if populated s g then
    match registerAt g o with
    | some r => regC s r
    | none => if validOffset (validByte g) = o then v ||| validMask g else v
  else v

/-- No two registers of a group have one offset (R106). -/
theorem groupRegs_offsets (g : Group) : (groupRegs g).Pairwise fun r q => outOffset params r ≠ outOffset params q := by
  cases g <;> decide

/-- A group's valid bits stand in no byte of its registers (R106, R108). -/
theorem outOffset_ne_validOffset {g : Group} {r : Nat} (h : r ∈ groupRegs g) :
    outOffset params r ≠ validOffset (validByte g) := by
  revert r; cases g <;> decide

/-- `groupByte` is the model's `encodeGroup`, one byte at a time. -/
theorem bufRead_encodeGroup (L : Layout) (s : State) (b : Buffer) (g : Group) (o : Nat) :
    bufRead (encodeGroup params L s b g) (L.outBase + o) = groupByte s o (bufRead b (L.outBase + o)) g := by
  unfold encodeGroup groupByte
  by_cases hp : populated s g = true
  · have hvalid : params.voff (params.vbyte g) = validOffset (validByte g) := rfl
    simp only [if_pos hp, hvalid]
    cases hr : registerAt g o with
    | some r =>
      have hmem : r ∈ groupRegs g := List.mem_of_find?_eq_some hr
      obtain rfl : outOffset params r = o := by simpa using List.find?_some hr
      have hplace : (groupRegs g).Pairwise fun r q => L.outBase + outOffset params r ≠ L.outBase + outOffset params q :=
        (groupRegs_offsets g).imp fun hne he => hne (Nat.add_left_cancel he)
      rw [bufRead_bufWrite_ne _ _ fun he => outOffset_ne_validOffset hmem (Nat.add_left_cancel he)]
      exact bufRead_writes_of_mem (regC s) hplace hmem b
    | none =>
      have hne : ∀ r ∈ groupRegs g, L.outBase + outOffset params r ≠ L.outBase + o := fun r hm he =>
        absurd (List.find?_eq_none.mp hr r hm) (by simpa using Nat.add_left_cancel he)
      by_cases ho : validOffset (validByte g) = o
      · subst ho
        rw [bufRead_bufWrite_same, bufRead_writes_of_ne (regC s) hne, if_pos rfl]
        rfl
      · rw [bufRead_bufWrite_ne _ _ fun he => ho (Nat.add_left_cancel he).symm, bufRead_writes_of_ne (regC s) hne]
        simp only [if_neg ho]
  · simp only [if_neg hp]

/-- No group writes below the common command fields. -/
theorem bufRead_encodeGroup_below (L : Layout) (s : State) (b : Buffer) (g : Group) {x : Nat} (h : x < L.outBase) :
    bufRead (encodeGroup params L s b g) x = bufRead b x := by
  unfold encodeGroup
  split
  · rw [bufRead_bufWrite_ne _ _ (by omega), bufRead_writes_of_ne _ fun r _ => by omega]
  · rfl

/-! ### The whole report -/

/-- The header of R205: the report id, the framing bytes on Bluetooth, zeros up to the report's length. -/
theorem bufRead_encodeHeader (L : Layout) (s : State) (x : Nat) :
    bufRead (encodeHeader params L s) x =
      if L.bt = true ∧ x = 2 then regC s 35
      else if L.bt = true ∧ x = 1 then regC s 34
      else if x = 0 then L.reportId
      else if x < L.outLen.toNat then 0
      else bufRead s.buf x := by
  unfold encodeHeader
  cases hbt : L.bt
  · simp [bufRead_bufWrite, bufRead_bufZero]
  · simp [bufRead_bufWrite, bufRead_bufZero, params]

/-- A byte of the common command fields is what the eight groups make of the header's byte. -/
theorem bufRead_encodeReport (L : Layout) (s : State) (o : Nat) :
    bufRead (encodeReport params L s) (L.outBase + o) =
      allGroups.foldl (groupByte s o) (bufRead (encodeHeader params L s) (L.outBase + o)) :=
  (List.foldl_hom (bufRead · (L.outBase + o)) fun b g => (bufRead_encodeGroup L s b g o).symm).symm

/-- Below the common command fields the report is its header. -/
theorem bufRead_encodeReport_below (L : Layout) (s : State) {x : Nat} (h : x < L.outBase) :
    bufRead (encodeReport params L s) x = bufRead (encodeHeader params L s) x :=
  ((List.foldl_hom (g₂ := fun v _ => v) (bufRead · x) fun b g => (bufRead_encodeGroup_below L s b g h).symm).symm).trans
    (List.foldl_fixed _)

/-! ### Which group acts on which byte (R106, R108) -/

/-- A field's byte belongs to the field's register and group alone. -/
theorem registerAt_row {row : Nat × Fin 36 × Nat} (h : row ∈ reportRows) (g : Group) :
    registerAt g row.1 = (if groupBit g = row.2.2 then some row.2.1.val else none) ∧
      validOffset (validByte g) ≠ row.1 := by
  revert row; cases g <;> decide

theorem groupByte_row {row : Nat × Fin 36 × Nat} (h : row ∈ reportRows) (s : State) (v : Byte) (g : Group) :
    groupByte s row.1 v g = if groupBit g = row.2.2 then (if s.grpEn.getLsbD row.2.2 then s.c[row.2.1] else v) else v := by
  obtain ⟨hr, hv⟩ := registerAt_row h g
  by_cases hg : groupBit g = row.2.2
  · simp only [groupByte, populated, hr, hg, if_true, regC_eq s row.2.1.isLt]
    rfl
  · simp only [groupByte, hr, if_neg hg, if_neg hv, ite_self]

/-- A byte that starts as 0 ends as its field (R205, R208). -/
theorem foldl_groupByte_row {row : Nat × Fin 36 × Nat} (h : row ∈ reportRows) (s : State) :
    allGroups.foldl (groupByte s row.1) 0 = fieldValue s row := by
  have hlt : ∀ row ∈ reportRows, row.2.2 < 8 := by decide
  have hj := hlt row h
  simp only [allGroups, List.foldl_cons, List.foldl_nil, groupByte_row h, groupBit, fieldValue]
  generalize row.2.2 = j at hj
  interval_cases j <;> simp

/-- At the offset of a byte of valid flags each of its groups sets its mask. -/
theorem groupByte_valid {o : Nat} (ho : o ∈ [0, 1, 38]) (s : State) (v : Byte) (g : Group) :
    groupByte s o v g =
      v ||| if validOffset (validByte g) = o then maskIf s (groupBit g) (validMask g) else 0 := by
  have hr : registerAt g o = none := by revert o; cases g <;> decide
  simp only [groupByte, hr, populated, maskIf]
  split <;> split <;> simp

/-- An offset that R106 gives to no register and no valid flags. -/
def Untouched (o : Nat) : Prop := ∀ g, registerAt g o = none ∧ validOffset (validByte g) ≠ o

theorem foldl_groupByte_untouched {o : Nat} (h : Untouched o) (s : State) (v : Byte) :
    allGroups.foldl (groupByte s o) v = v := by
  have hg : groupByte s o = fun v _ => v := by
    funext v g
    simp only [groupByte, (h g).1, if_neg (h g).2, ite_self]
  rw [hg, List.foldl_fixed]

theorem untouched_gap {o : Nat} (h : o ∈ [8, 32, 33, 34, 35, 36, 37, 39, 40, 41]) : Untouched o := by
  intro g; revert o; cases g <;> decide

/-- The common command fields are 47 bytes (R106). -/
theorem untouched_of_ge {o : Nat} (h : 47 ≤ o) : Untouched o := fun g => by
  constructor
  · refine List.find?_eq_none.mpr fun r _ => ?_
    have := outOffset_params_lt r
    simp only [decide_eq_true_eq]
    omega
  · have : validOffset (validByte g) ≤ 38 := by cases g <;> decide
    omega

/-! ### The command in the report -/

/-- Past the common command fields the report is its header. -/
theorem bufRead_encodeReport_above (L : Layout) (s : State) {x : Nat} (h : L.outBase + 47 ≤ x) :
    bufRead (encodeReport params L s) x = bufRead (encodeHeader params L s) x := by
  obtain ⟨o, rfl⟩ := Nat.exists_eq_add_of_le (Nat.le_of_add_right_le h)
  rw [bufRead_encodeReport, foldl_groupByte_untouched (untouched_of_ge (by omega))]

/-- Over a header of zeros the groups write the command (R205 to R209). -/
theorem encodeReport_holdsCommand {L : Layout} {s : State}
    (h : ∀ o, o < 47 → bufRead (encodeHeader params L s) (L.outBase + o) = 0) :
    HoldsCommand (encodeReport params L s) L.outBase s := by
  have hrow : ∀ row ∈ reportRows, row.1 < 47 := by decide
  have hgap : ∀ x ∈ [8, 32, 33, 34, 35, 36, 37, 39, 40, 41], x < 47 := by decide
  refine ⟨fun row hr => ?_, ?_, ?_, ?_, fun x hx => ?_⟩
  · rw [bufRead_encodeReport, h _ (hrow row hr), foldl_groupByte_row hr]
  · refine (bufRead_encodeReport L s 0).trans ?_
    rw [h 0 (by omega)]
    simp [allGroups, groupByte_valid, validOffset, validByte, validMask, groupBit]
  · rw [bufRead_encodeReport, h 1 (by omega)]
    simp [allGroups, groupByte_valid, validOffset, validByte, validMask, groupBit, BitVec.or_comm]
  · rw [bufRead_encodeReport, h 38 (by omega)]
    simp [allGroups, groupByte_valid, validOffset, validByte, validMask, groupBit, BitVec.or_assoc,
      BitVec.or_comm (maskIf s 6 4#8)]
  · rw [bufRead_encodeReport, h x (hgap x hx), foldl_groupByte_untouched (untouched_gap hx)]

/-- The command's place is the 47 bytes from its base on. -/
theorem holdsCommand_congr {b c : Buffer} {B : Nat} {s : State} (h : ∀ x, x < B + 47 → bufRead b x = bufRead c x)
    (hc : HoldsCommand c B s) : HoldsCommand b B s := by
  have hrow : ∀ row ∈ reportRows, row.1 < 47 := by decide
  have hgap : ∀ x ∈ [8, 32, 33, 34, 35, 36, 37, 39, 40, 41], x < 47 := by decide
  obtain ⟨h1, h2, h3, h4, h5⟩ := hc
  exact ⟨fun row hr => (h _ (by have := hrow row hr; omega)).trans (h1 row hr), (h _ (by omega)).trans h2,
    (h _ (by omega)).trans h3, (h _ (by omega)).trans h4,
    fun x hx => (h _ (by have := hgap x hx; omega)).trans (h5 x hx)⟩

/-! ### The two transports -/

/-- ENCODE completes under a layout (R205). -/
theorem exec_encode {s : State} {L : Layout} (h0 : s.err = 0) (hL : layoutOf params s.tr = some L) :
    exec .encode s = .next (encodeEffect params L s) := by
  rw [exec_completes ⟨fun _ => h0, rfl, by simp [operationChecks, hasLayout, hL]⟩]
  simp only [operationEffect, hL, Option.elim_some]

/-- Settles O43. -/
theorem encodeOnUsbBuildsTheReport : Obligations.EncodeOnUsbBuildsTheReport := by
  refine ⟨rfl, fun s h0 htr => ?_⟩
  have hL : layoutOf params s.tr = some usbLayout := by rw [htr]; rfl
  have hheader (x : Nat) : bufRead (encodeHeader params usbLayout s) x =
      if x = 0 then 0x02 else if x < 63 then 0 else bufRead s.buf x := by
    rw [bufRead_encodeHeader]; simp [usbLayout]
  refine ⟨_, exec_encode h0 hL, ?_, encodeReport_holdsCommand (L := usbLayout) fun o ho => ?_, fun x h48 h63 => ?_,
    fun x h63 => ?_, rfl, ?_⟩
  · exact (bufRead_encodeReport_below usbLayout s (by decide)).trans (hheader 0)
  · rw [hheader, if_neg (by simp [usbLayout]), if_pos (by simp [usbLayout]; omega)]
  · exact (bufRead_encodeReport_above usbLayout s h48).trans (by rw [hheader, if_neg (by omega), if_pos h63])
  · exact (bufRead_encodeReport_above usbLayout s (by simp [usbLayout]; omega)).trans
      (by rw [hheader, if_neg (by omega), if_neg (by omega)])
  · rw [txReady_iff]
    exact ⟨h0, rfl, .inl htr⟩

/-- R158's running checksum: the body, then four zeros for the trailer. -/
theorem signAcc_eq (k : BitVec 2) (b : Buffer) {n : Nat} :
    signAcc params k b (n + 4) =
      crcFeed params (seedState params (seedByte params k)) (bufBytes b 0 n ++ [0, 0, 0, 0]) := by
  have hzero (x : Nat) : bufRead (zeroTrailer b (n + 4)) x = if n ≤ x ∧ x < n + 4 then 0 else bufRead b x :=
    bufRead_zeroTrailer b (by omega) x
  have hbody : bufBytes (zeroTrailer b (n + 4)) 0 n = bufBytes b 0 n :=
    bufBytes_congr fun x _ hx => by rw [hzero, if_neg (by omega)]
  have htrailer : bufBytes (zeroTrailer b (n + 4)) (0 + n) 4 = [0, 0, 0, 0] := by
    simp [bufBytes, List.range_succ, hzero]
  rw [signAcc, show coveredLen params (n + 4) = n + 4 from rfl, bufBytes_append, hbody, htrailer]

/-- R143's seed state for an output report. -/
theorem seedState_out : seedState params (seedByte params 0) = 0x39D9F16D := by decide +kernel

/-- Settles O44. -/
theorem encodeOnBluetoothBuildsTheReport : Obligations.EncodeOnBluetoothBuildsTheReport := by
  intro s h0 htr
  have hL : layoutOf params s.tr = some btLayout := by rw [htr]; rfl
  have hheader (x : Nat) : bufRead (encodeHeader params btLayout s) x =
      if x = 2 then regC s 35 else if x = 1 then regC s 34 else
      if x = 0 then 0x31 else if x < 78 then 0 else bufRead s.buf x := by
    rw [bufRead_encodeHeader]; simp [btLayout]
  have hsigned (x : Nat) : bufRead (encodeEffect params btLayout s).buf x =
      if 74 ≤ x ∧ x < 78 then (encodeEffect params btLayout s).crcRes.extractLsb' (8 * (x - 74)) 8
      else bufRead (encodeReport params btLayout s) x :=
    bufRead_sign params 0 { s with buf := encodeReport params btLayout s, bufLen := 78 } (Nat.le_of_ble_eq_true rfl) x
  have hbody (x : Nat) (h : x < 74) :
      bufRead (encodeEffect params btLayout s).buf x = bufRead (encodeReport params btLayout s) x := by
    rw [hsigned, if_neg (by omega)]
  refine ⟨_, exec_encode h0 hL, ?_, ?_, ?_, ?_, fun x h50 h74 => ?_, ?_, rfl, fun i hi => ?_, fun x h78 => ?_, rfl, ?_⟩
  · rw [hbody 0 (by omega), bufRead_encodeReport_below _ _ (by decide), hheader]; rfl
  · rw [hbody 1 (by omega), bufRead_encodeReport_below _ _ (by decide), hheader]; exact regC_eq s (r := 34) (by decide)
  · rw [hbody 2 (by omega), bufRead_encodeReport_below _ _ (by decide), hheader]; exact regC_eq s (r := 35) (by decide)
  · refine holdsCommand_congr (fun x hx => hbody x (by omega)) (encodeReport_holdsCommand (L := btLayout) fun o ho => ?_)
    have hbase : btLayout.outBase = 3 := rfl
    rw [hheader, if_neg (by omega), if_neg (by omega), if_neg (by omega), if_pos (by omega)]
  · rw [hbody x h74, bufRead_encodeReport_above _ _ h50, hheader, if_neg (by omega), if_neg (by omega),
      if_neg (by omega), if_pos (by omega)]
  · rw [bufBytes_congr fun x _ hx => hbody x (by omega), ← seedState_out]
    exact signAcc_eq 0 (encodeReport params btLayout s) (n := 74)
  · rw [hsigned, if_pos (by omega), Nat.add_sub_cancel_left]
  · have hbase : btLayout.outBase = 3 := rfl
    rw [hsigned, if_neg (by omega), bufRead_encodeReport_above _ _ (by omega), hheader, if_neg (by omega),
      if_neg (by omega), if_neg (by omega), if_neg (by omega)]
  · rw [txReady_iff]
    exact ⟨h0, rfl, .inr ⟨htr, rfl⟩⟩

end Sys2Proof.Machine

/-! ## Bytes, little-endian reads and bit fields (R52, R54, R57), and the writers of the buffer (R28, R60) -/

namespace Sys2Proof.Machine

/-! ### MemRead as a sum of bytes (R52) -/

/-- The little-endian step: appending puts the right part in the low bits and the left part above them. -/
theorem toNat_append_eq_add {m n : Nat} (x : BitVec m) (y : BitVec n) :
    (x ++ y).toNat = y.toNat + x.toNat * 2 ^ n := by
  rw [BitVec.toNat_append, ← Nat.shiftLeft_add_eq_or_of_lt y.isLt, Nat.shiftLeft_eq, Nat.add_comm]

/-- Settles O39. -/
theorem memReadIsTheLittleEndianSum : Obligations.MemReadIsTheLittleEndianSum := by
  intro f a
  unfold memRead2 memRead4
  simp only [toNat_append_eq_add, List.sum_range_succ]
  simp

/-! ### BitRead against bytes (R57) -/

/-- Bit j past the start of byte a is bit j mod 8 of byte a + j div 8 (R54). -/
theorem bufBit_byte (f : Buffer) (a j : Nat) : bufBit f (8 * a + j) = (bufRead f (a + j / 8)).getLsbD (j % 8) := by
  rw [bufBit, Nat.mul_add_div (by decide), Nat.mul_add_mod]

/-- Two bit fields end to end are one: the second stands above the first. -/
theorem bitRead_add (f : Buffer) (i m n : Nat) :
    bitRead f i (m + n) = bitRead f i m ||| bitRead f (i + m) n <<< m := by
  apply BitVec.eq_of_getLsbD_eq
  intro j hj
  rw [BitVec.getLsbD_or, BitVec.getLsbD_shiftLeft, getLsbD_bitRead _ _ _ _ hj, getLsbD_bitRead _ _ _ _ hj,
    getLsbD_bitRead _ _ _ _ (by omega)]
  by_cases h : j < m
  · simp [h, show j < m + n by omega]
  · simp [h, hj, show i + m + (j - m) = i + j by omega, show j - m < n ↔ j < m + n by omega]

/-- A bit field that lies inside one byte is those bits of the byte. -/
theorem bitRead_within_byte (f : Buffer) (a : Nat) {i n : Nat} (h : i + n ≤ 8) :
    bitRead f (8 * a + i) n = ((bufRead f a).extractLsb' i n).setWidth 32 := by
  apply BitVec.eq_of_getLsbD_eq
  intro j hj
  rw [getLsbD_bitRead _ _ _ _ hj, BitVec.getLsbD_setWidth, BitVec.getLsbD_extractLsb', Nat.add_assoc, bufBit_byte]
  by_cases hn : j < n
  · simp [hj, hn, show (i + j) / 8 = 0 by omega, show (i + j) % 8 = i + j by omega]
  · simp [hn]

theorem bitRead_byte (f : Buffer) (a : Nat) : bitRead f (8 * a) 8 = (bufRead f a).setWidth 32 := by
  rw [← Nat.add_zero (8 * a), bitRead_within_byte f a (by decide), BitVec.extractLsb'_eq_self]

theorem bitRead_low_nibble (f : Buffer) (a : Nat) : bitRead f (8 * a) 4 = (bufRead f a &&& 0x0F).setWidth 32 := by
  have h : ∀ v : Byte, (v.extractLsb' 0 4).setWidth 32 = (v &&& 0x0F).setWidth 32 := by decide
  exact (bitRead_within_byte f a (i := 0) (by decide)).trans (h _)

theorem bitRead_high_nibble (f : Buffer) (a : Nat) :
    bitRead f (8 * a + 4) 4 = (bufRead f a >>> 4).setWidth 32 := by
  have h : ∀ v : Byte, (v.extractLsb' 4 4).setWidth 32 = (v >>> 4).setWidth 32 := by decide
  exact (bitRead_within_byte f a (by decide)).trans (h _)

theorem bitRead_bit7 (f : Buffer) (a : Nat) :
    bitRead f (8 * a + 7) 1 = (BitVec.ofBool ((bufRead f a).getLsbD 7)).setWidth 32 := by
  have h : ∀ v : Byte, v.extractLsb' 7 1 = BitVec.ofBool (v.getLsbD 7) := by decide
  rw [bitRead_within_byte f a (by decide), h]

theorem bitRead_low_seven (f : Buffer) (a : Nat) : bitRead f (8 * a) 7 = (bufRead f a &&& 0x7F).setWidth 32 := by
  have h : ∀ v : Byte, (v.extractLsb' 0 7).setWidth 32 = (v &&& 0x7F).setWidth 32 := by decide
  exact (bitRead_within_byte f a (i := 0) (by decide)).trans (h _)

/-! ### BitRead against MemRead and the touch formulas (R57) -/

theorem bitRead_memRead2 (f : Buffer) (a : Nat) : bitRead f (8 * a) 16 = (memRead2 f a).setWidth 32 := by
  apply BitVec.eq_of_getLsbD_eq
  intro j hj
  rw [getLsbD_bitRead _ _ _ _ hj, bufBit_byte, BitVec.getLsbD_setWidth]
  by_cases h : j < 16
  · rw [getLsbD_memRead2 f a h]
    simp [hj, h]
  · simp [h, BitVec.getLsbD_of_ge (memRead2 f a) j (by omega)]

theorem bitRead_memRead4 (f : Buffer) (a : Nat) : bitRead f (8 * a) 32 = memRead4 f a := by
  apply BitVec.eq_of_getLsbD_eq
  intro j hj
  rw [getLsbD_bitRead _ _ _ _ hj, bufBit_byte, getLsbD_memRead4 f a hj, decide_eq_true hj, Bool.true_and]

/-- A touch point's x: a byte, and above it the low nibble of the next (R100). -/
theorem bitRead_touch_x (f : Buffer) (a : Nat) :
    bitRead f (8 * a + 8) 12 =
      ((bufRead f (a + 1)).setWidth 32 ||| ((bufRead f (a + 2) &&& 0x0F).setWidth 32 <<< 8)) := by
  rw [← bitRead_byte, ← bitRead_low_nibble]
  exact bitRead_add f (8 * (a + 1)) 8 4

/-- A touch point's y: the high nibble of a byte, and above it the next byte (R100). -/
theorem bitRead_touch_y (f : Buffer) (a : Nat) :
    bitRead f (8 * a + 20) 12 =
      ((bufRead f (a + 2) >>> 4).setWidth 32 ||| ((bufRead f (a + 3)).setWidth 32 <<< 4)) := by
  rw [← bitRead_high_nibble, ← bitRead_byte]
  exact bitRead_add f (8 * (a + 2) + 4) 4 8

/-- Settles O38. -/
theorem bitFieldsAgreeWithBytes : Obligations.BitFieldsAgreeWithBytes :=
  fun f a => ⟨bitRead_byte f a, bitRead_memRead2 f a, bitRead_memRead4 f a, bitRead_low_nibble f a,
    bitRead_high_nibble f a, bitRead_bit7 f a, bitRead_low_seven f a, bitRead_touch_x f a, bitRead_touch_y f a⟩

/-! ### The writers of BUF and of BUF_LEN (R28, R60) -/

/-- The operations outside R60's list of those that write BUF. -/
def keepsBuf : Instr → Bool
  | .wrb _ _ | .zfill _ | .inj _ _ _ | .bset _ _ | .crcput | .crcsign _ | .encode => false
  | _ => true

/-- The operations outside R28's list of those that write BUF_LEN. -/
def keepsBufLen : Instr → Bool
  | .setlen _ | .zfill _ | .encode | .newcyc => false
  | _ => true

theorem operationEffect_buf {i : Instr} (h : keepsBuf i = true) (s : State) : (operationEffect i s).buf = s.buf := by
  cases i with
  | wrb | zfill | inj | bset | crcput | crcsign | encode => cases h
  | decode => simp only [operationEffect]; cases layoutOf params s.tr <;> rfl
  | _ => rfl

theorem operationEffect_bufLen {i : Instr} (h : keepsBufLen i = true) (s : State) :
    (operationEffect i s).bufLen = s.bufLen := by
  cases i with
  | setlen | zfill | encode | newcyc => cases h
  | decode => simp only [operationEffect]; cases layoutOf params s.tr <;> rfl
  | _ => rfl

/-- Settles O50: lockout and faults write neither register, and the effects write them as R60 and R28 list. -/
theorem onlyTheListedOperationsWriteTheBuffer : Obligations.OnlyTheListedOperationsWriteTheBuffer :=
  fun _ s _ h =>
    ⟨fun hb => exec_preserves (f := State.buf) (fun _ _ _ => rfl) h (operationEffect_buf hb s),
      fun hl => exec_preserves (f := State.bufLen) (fun _ _ _ => rfl) h (operationEffect_bufLen hl s)⟩

end Sys2Proof.Machine

/-! ## The encoding (R70 to R79, R85)

`zeroField` and `operandsOf` say of each operation where its must-be-zero bits and its operands stand. The decoder
(`decode_assigned`), the encoder (`decode_encode`, `encode_operandsOf`) and the rows of the opcode map (`opcodeMap_eq`,
`selects_rowOf`) are each tied to them once, and the statements follow. -/

namespace Sys2Proof.Machine

/-! ### The operation code, the must-be-zero bits and the operands of each operation -/

/-- The operation that an instruction is of. -/
def opOfInstr : Instr → Op
  | .newcyc => .newcyc
  | .clrcmd => .clrcmd
  | .settr _ => .settr
  | .setlen _ => .setlen
  | .wrb _ _ => .wrb
  | .wrc _ _ => .wrc
  | .crcseed _ => .crcseed
  | .crcbyte _ => .crcbyte
  | .crcfeed _ _ => .crcfeed
  | .crcfin => .crcfin
  | .crcput => .crcput
  | .crcsign _ => .crcsign
  | .ext _ _ => .ext
  | .inj _ _ _ => .inj
  | .bset _ _ => .bset
  | .zfill _ => .zfill
  | .decode => .decode
  | .batpct => .batpct
  | .encode => .encode

/-- The must-be-zero bits below the operation code (R71 to R74): the lowest, and how many. INJ has none. -/
def zeroField : Op → Nat × Nat
  | .newcyc | .clrcmd | .crcfin | .crcput | .decode | .batpct | .encode => (0, 24)
  | .settr | .crcseed | .crcsign => (2, 22)
  | .wrb | .wrc | .crcfeed | .bset => (16, 8)
  | .setlen | .crcbyte | .zfill => (8, 16)
  | .ext => (0, 8)
  | .inj => (0, 0)

/-- R78's condition. -/
def zerosHold (o : Op) (w : Word) : Bool := w.extractLsb' (zeroField o).1 (zeroField o).2 == 0

/-- The operation with the operand fields of a word (R75). -/
def operandsOf : Op → Word → Instr
  | .newcyc, _ => .newcyc
  | .clrcmd, _ => .clrcmd
  | .settr, w => .settr (kField w)
  | .setlen, w => .setlen (immField w)
  | .wrb, w => .wrb (aField w) (immField w)
  | .wrc, w => .wrc (aField w) (immField w)
  | .crcseed, w => .crcseed (kField w)
  | .crcbyte, w => .crcbyte (immField w)
  | .crcfeed, w => .crcfeed (aField w) (immField w)
  | .crcfin, _ => .crcfin
  | .crcput, _ => .crcput
  | .crcsign, w => .crcsign (kField w)
  | .ext, w => .ext (boffField w) (lenField w)
  | .inj, w => .inj (boffField w) (lenField w) (immField w)
  | .bset, w => .bset (aField w) (immField w)
  | .zfill, w => .zfill (immField w)
  | .decode, _ => .decode
  | .batpct, _ => .batpct
  | .encode, _ => .encode

theorem zerosHold_inj (w : Word) : zerosHold .inj w = true := beq_iff_eq.mpr (BitVec.eq_nil _)

/-- The model's decoder reads the fields that `zeroField` and `operandsOf` name. -/
theorem readOperands_eq (P : Params) (o : Op) (w : Word) :
    readOperands P o w = accept P (zerosHold o w) (operandsOf o w) := by
  cases o
  case inj => rw [zerosHold_inj]; rfl
  all_goals rfl

/-! ### What the decoder can answer (R85) -/

/-- A word with an assigned code: R78, then R79. -/
theorem decode_assigned {w : Word} {o : Op} (h : opField w = params.opcode o) :
    decode w = accept params (zerosHold o w) (operandsOf o w) :=
  (decode_of_opField h).trans (readOperands_eq params o w)

/-- A word with a reserved code (R77). -/
theorem decode_reserved {w : Word} (h : ∀ o, opField w ≠ params.opcode o) : decode w = .error .reservedOpcode := by
  have hnone : opOf params (opField w) = none :=
    Option.eq_none_iff_forall_ne_some.mpr fun o ho => h o (opOf_eq_some.mp ho).symm
  simp only [decode, decodeWith, hnone]

/-- The codes of R76 differ. -/
theorem opcode_injective {o q : Op} (h : params.opcode o = params.opcode q) : o = q :=
  Option.some.inj ((opOf_params o).symm.trans ((congrArg (opOf params) h).trans (opOf_params q)))

/-- The words that decode to an operation, and to which. -/
theorem decode_eq_ok {w : Word} {i : Instr} (h : decode w = .ok i) :
    ∃ o, opField w = params.opcode o ∧ zerosHold o w = true ∧ operandsOf o w = i ∧ i.wellFormed = true := by
  by_cases hop : ∃ o, opField w = params.opcode o
  · obtain ⟨o, ho⟩ := hop
    rw [decode_assigned ho, accept] at h
    split at h
    · next hz =>
      split at h
      · next hr => cases h; exact ⟨o, ho, hz, rfl, hr⟩
      · cases h
    · cases h
  · rw [decode_reserved (not_exists.mp hop)] at h
    cases h

/-! ### Decoding an encoding -/

theorem opField_encode (i : Instr) : opField (encode i) = params.opcode (opOfInstr i) := by
  cases i <;> exact opField_append _ _

theorem zerosHold_encode (i : Instr) : zerosHold (opOfInstr i) (encode i) = true := by
  cases i with
  | newcyc | clrcmd | crcfin | crcput | decode | batpct | encode => exact zeroF0_encF0 _
  | settr | crcseed | crcsign => exact zeroFK_encFK _ _
  | wrb | wrc | crcfeed | bset => exact zeroFA_encFA _ _ _
  | setlen | crcbyte | zfill => exact zeroFA1_encFA _ _
  | ext => exact zeroFB_encFB _ _ _
  | inj => exact zerosHold_inj _

theorem operandsOf_encode (i : Instr) : operandsOf (opOfInstr i) (encode i) = i := by
  cases i <;> simp only [opOfInstr, operandsOf, encode, encodeWith, kField_encFK, aField_encFA, immField_encFA,
    boffField_encFB, lenField_encFB, immField_encFB]

/-- An encoding meets R77 and R78, so that only R79 is left to decide. -/
theorem decode_encode (i : Instr) : decode (encode i) = if i.wellFormed = true then .ok i else .error .operandRange := by
  rw [decode_assigned (opField_encode i), zerosHold_encode, operandsOf_encode]
  rfl

/-- Settles O1: the well-formed half of `decode_encode`. -/
theorem decodeOfEncodeIsTheOperation : Obligations.DecodeOfEncodeIsTheOperation :=
  fun i h => (decode_encode i).trans (if_pos h)

/-! ### Encoding what was decoded -/

/-- Concatenations of equal widths agree part by part. -/
theorem append_eq_append {m n : Nat} {x x' : BitVec m} {y y' : BitVec n} (h : x ++ y = x' ++ y') : x = x' ∧ y = y' :=
  ⟨by simpa only [BitVec.extractLsb'_append_eq_left] using congrArg (BitVec.extractLsb' n m) h,
    by simpa only [BitVec.extractLsb'_append_eq_right] using congrArg (BitVec.extractLsb' 0 n) h⟩

/-- The word is its operation code and the 24 bits below. -/
theorem opField_append_low (w : Word) : opField w ++ w.extractLsb' 0 24 = w :=
  (BitVec.extractLsb'_append_extractLsb'_eq_extractLsb' rfl).trans BitVec.extractLsb'_eq_self

theorem encF0_of_fields {op : Byte} {w : Word} (hop : opField w = op) (hz : w.extractLsb' 0 24 = 0) :
    encF0 op = w := by
  rw [encF0, ← hop, ← hz, opField_append_low]

theorem encFK_of_fields {op : Byte} {w : Word} (hop : opField w = op) (hz : w.extractLsb' 2 22 = 0) :
    encFK op (kField w) = w := by
  have hlow : w.extractLsb' 2 22 ++ kField w = w.extractLsb' 0 24 :=
    BitVec.extractLsb'_append_extractLsb'_eq_extractLsb' rfl
  rw [encFK, ← hop, ← hz, hlow, opField_append_low]

theorem encFA_of_fields {op : Byte} {w : Word} (hop : opField w = op) (hz : w.extractLsb' 16 8 = 0) :
    encFA op (aField w) (immField w) = w := by
  have hai : aField w ++ immField w = w.extractLsb' 0 16 := BitVec.extractLsb'_append_extractLsb'_eq_extractLsb' rfl
  have hlow : w.extractLsb' 16 8 ++ w.extractLsb' 0 16 = w.extractLsb' 0 24 :=
    BitVec.extractLsb'_append_extractLsb'_eq_extractLsb' rfl
  rw [encFA, ← hop, ← hz, hai, hlow, opField_append_low]

/-- FA with a required to be 0 (R73): both halves of the zero field are 0. -/
theorem encFA1_of_fields {op : Byte} {w : Word} (hop : opField w = op) (hz : w.extractLsb' 8 16 = 0) :
    encFA op 0 (immField w) = w := by
  have hsplit : w.extractLsb' 16 8 ++ aField w = (0 : Byte) ++ (0 : Byte) :=
    (BitVec.extractLsb'_append_extractLsb'_eq_extractLsb' rfl).trans hz
  obtain ⟨hhigh, ha⟩ := append_eq_append hsplit
  rw [← ha, encFA_of_fields hop hhigh]

theorem encFB_of_fields {op : Byte} {w : Word} (hop : opField w = op) :
    encFB op (boffField w) (lenField w) (immField w) = w := by
  have hli : lenField w ++ immField w = w.extractLsb' 0 14 := BitVec.extractLsb'_append_extractLsb'_eq_extractLsb' rfl
  have hlow : boffField w ++ w.extractLsb' 0 14 = w.extractLsb' 0 24 :=
    BitVec.extractLsb'_append_extractLsb'_eq_extractLsb' rfl
  rw [encFB, ← hop, hli, hlow, opField_append_low]

/-- The operation code, the must-be-zero bits and the operands are the whole word. -/
theorem encode_operandsOf {o : Op} {w : Word} (hop : opField w = params.opcode o) (hz : zerosHold o w = true) :
    encode (operandsOf o w) = w := by
  have hz := beq_iff_eq.mp hz
  cases o with
  | newcyc | clrcmd | crcfin | crcput | decode | batpct | encode => exact encF0_of_fields hop hz
  | settr | crcseed | crcsign => exact encFK_of_fields hop hz
  | wrb | wrc | crcfeed | bset => exact encFA_of_fields hop hz
  | setlen | crcbyte | zfill => exact encFA1_of_fields hop hz
  | ext =>
    have himm : immField w = 0 := hz
    have h := encFB_of_fields hop
    rw [himm] at h
    exact h
  | inj => exact encFB_of_fields hop

/-- Settles O2. No bit of the word is outside its code, its must-be-zero bits and its operands. -/
theorem legalWordIsItsOperationsEncoding : Obligations.LegalWordIsItsOperationsEncoding := by
  intro w i h
  obtain ⟨o, hop, hz, rfl, hw⟩ := decode_eq_ok h
  exact ⟨hw, encode_operandsOf hop hz⟩

/-! ### The rows of the opcode map (R76) -/

/-- The bits of a row's mask: the operation code's, and `len` from `start` on. -/
def fixedMask (start len : Nat) : Word := (0xFF : Byte) ++ ((BitVec.allOnes len).setWidth 24 <<< start)

/-- The row of an operation, from its formats. -/
def rowOf (o : Op) : OpcodeRow where
  name := mnemonic (operandsOf o 0)
  pattern := encF0 (params.opcode o)
  mask := fixedMask (zeroField o).1 (zeroField o).2
  operands := operandsOf o

/-- The table's own columns are those that the formats give. -/
theorem opcodeMap_eq : opcodeMap = allOps.map rowOf := rfl

theorem mem_opcodeMap {r : OpcodeRow} : r ∈ opcodeMap ↔ ∃ o, r = rowOf o := by
  have hall : ∀ o, o ∈ allOps := fun o => by cases o <;> decide
  rw [opcodeMap_eq, List.mem_map]
  exact ⟨fun ⟨o, _, h⟩ => ⟨o, h.symm⟩, fun ⟨o, h⟩ => ⟨o, hall o, h.symm⟩⟩

/-- Bits under a run of ones are all 0 exactly when that field is. -/
theorem and_ones_eq_zero_iff {start len : Nat} (h : start + len ≤ 24) (x : BitVec 24) :
    x &&& (BitVec.allOnes len).setWidth 24 <<< start = 0 ↔ x.extractLsb' start len = 0 := by
  constructor
  · intro h0
    apply BitVec.eq_of_getLsbD_eq
    intro i hi
    have hbit := congrArg (·.getLsbD (start + i)) h0
    simpa [hi, show start + i < 24 by omega, show i < 24 by omega] using hbit
  · intro h0
    apply BitVec.eq_of_getLsbD_eq
    intro i hi
    have hbit := congrArg (·.getLsbD (i - start)) h0
    by_cases hs : start ≤ i ∧ i - start < len
    · simpa [hi, hs, show ¬ i < start by omega, show start + (i - start) = i by omega] using hbit
    · have hout : i < start ∨ ¬ i - start < len := by omega
      rcases hout with hout | hout <;> simp [hout]

/-- `w and mask = match` fixes the operation code and the zero field. -/
theorem and_fixedMask_eq_iff {start len : Nat} (h : start + len ≤ 24) (op : Byte) (w : Word) :
    w &&& fixedMask start len = encF0 op ↔ opField w = op ∧ w.extractLsb' start len = 0 := by
  have hop : opField w &&& 0xFF = opField w := BitVec.and_allOnes
  rw [← BitVec.extractLsb'_extractLsb'_of_le h, ← and_ones_eq_zero_iff h]
  conv_lhs => rw [← opField_append_low w, fixedMask, BitVec.and_append, hop, encF0]
  exact ⟨append_eq_append, fun ⟨h1, h2⟩ => by rw [h1, h2]⟩

/-- A word selects a row when its operation code is the row's and R78's condition holds. -/
theorem selects_rowOf {o : Op} {w : Word} :
    selects (rowOf o) w = true ↔ opField w = params.opcode o ∧ zerosHold o w = true := by
  have h : (zeroField o).1 + (zeroField o).2 ≤ 24 := by cases o <;> decide
  rw [selects, beq_iff_eq, zerosHold, beq_iff_eq]
  exact and_fixedMask_eq_iff h _ w

theorem mnemonic_operandsOf (o : Op) (w : Word) : mnemonic (operandsOf o w) = (rowOf o).name := by cases o <;> rfl

/-- A word of an assigned code that does not select its row has a must-be-zero bit that is 1 (R78). -/
theorem decode_mustBeZero {o : Op} {w : Word} (hop : opField w = params.opcode o) (h : ¬ selects (rowOf o) w = true) :
    decode w = .error .mustBeZero := by
  have hz : zerosHold o w = false := by simpa [selects_rowOf, hop] using h
  rw [decode_assigned hop, hz]
  rfl

/-- Settles O3: a row is selected when the code is its operation's and R78 holds, which is what the decoder asks. -/
theorem decoderFollowsTheOpcodeMap : Obligations.DecoderFollowsTheOpcodeMap := by
  refine fun w => ⟨fun r hr hsel => ?_, fun hnone => ?_, fun r hr q hq hsr hsq => ?_⟩
  · obtain ⟨o, rfl⟩ := mem_opcodeMap.mp hr
    obtain ⟨hop, hz⟩ := selects_rowOf.mp hsel
    exact ⟨mnemonic_operandsOf o w, by rw [decode_assigned hop, hz]; rfl⟩
  · by_cases hop : ∃ o, opField w = params.opcode o
    · obtain ⟨o, ho⟩ := hop
      exact .inr (decode_mustBeZero ho (Bool.eq_false_iff.mp (hnone _ (mem_opcodeMap.mpr ⟨o, rfl⟩))))
    · exact .inl (decode_reserved (not_exists.mp hop))
  · obtain ⟨o, rfl⟩ := mem_opcodeMap.mp hr
    obtain ⟨o', rfl⟩ := mem_opcodeMap.mp hq
    rw [opcode_injective ((selects_rowOf.mp hsr).1.symm.trans (selects_rowOf.mp hsq).1)]

/-! ### Illegal words at the command port -/

/-- R77 to R79, R120: the fault entry of an illegal word, in the code of R220. -/
theorem issue_illegal {w : Word} {r : Reject} {s : State} (h : decode w = .error r) (h0 : s.err = 0) :
    issue w s = .next (faulted 7 w s) := issue_of_error h h0

/-- Settles O9. -/
theorem stepOnAnIllegalWordRaises : Obligations.StepOnAnIllegalWordRaises :=
  fun _ _ _ _ hs hd h0 => (step_command hs).trans (issue_illegal hd h0)

/-- The operation codes of R76 lie outside the ranges that R77 reserves. -/
theorem opcode_not_reserved (o : Op) :
    let op := (params.opcode o).toNat
    ¬ (op = 0 ∨ (0x07 ≤ op ∧ op ≤ 0x0F) ∨ (0x16 ≤ op ∧ op ≤ 0x1F) ∨ (0x24 ≤ op ∧ op ≤ 0x2F) ∨ 0x33 ≤ op) := by
  cases o <;> decide

theorem toNat_opField (w : Word) : (opField w).toNat = w.toNat / 2 ^ 24 := by
  have hw := w.isLt
  rw [opField, BitVec.extractLsb'_toNat, Nat.shiftRight_eq_div_pow, Nat.mod_eq_of_lt (by omega)]

/-- Settles O4. -/
theorem reservedOpcodesAreIllegal : Obligations.ReservedOpcodesAreIllegal := by
  intro w s h0 hres
  rw [← toNat_opField] at hres
  have hd : decode w = .error .reservedOpcode :=
    decode_reserved fun o ho => opcode_not_reserved o (ho ▸ hres)
  exact ⟨hd, issue_illegal hd h0⟩

/-- Settles O5: no other row has the word's operation code. -/
theorem nonzeroReservedBitsAreIllegal : Obligations.NonzeroReservedBitsAreIllegal := by
  intro r hr w s h0 hop hne
  obtain ⟨o, rfl⟩ := mem_opcodeMap.mp hr
  have hop : opField w = params.opcode o := hop.trans (opField_encF0 _)
  have hsel : ¬ selects (rowOf o) w = true := fun h => hne (beq_iff_eq.mp h)
  refine ⟨fun q hq => ?_, issue_illegal (decode_mustBeZero hop hsel) h0⟩
  obtain ⟨o', rfl⟩ := mem_opcodeMap.mp hq
  refine Bool.eq_false_iff.mpr fun h => hsel ?_
  rwa [opcode_injective (hop.symm.trans (selects_rowOf.mp h).1)]

/-- R79: the word of an operation with an operand out of its range raises. -/
theorem issue_encode_outOfRange {i : Instr} {s : State} (h0 : s.err = 0) (h : ¬ i.wellFormed = true) :
    issue (encode i) s = .next (faulted 7 (encode i) s) :=
  issue_illegal ((decode_encode i).trans (if_neg h)) h0

/-- Settles O6: each operand named is out of the range that `wellFormed` states, and the last four operations meet it. -/
theorem operandsOutOfRangeAreIllegal : Obligations.OperandsOutOfRangeAreIllegal := by
  refine ⟨fun s h0 i hi => issue_encode_outOfRange h0 fun hw => ?_, fun t => ?_, fun a v => ⟨?_, ?_⟩,
    fun b l h1 h32 => ?_, fun b l v h1 h8 hv => ?_⟩
  · rcases hi with rfl | rfl | ⟨n, hn, rfl | rfl⟩ | ⟨a, v, ha, rfl⟩ | ⟨r, v, hr, rfl⟩ | ⟨b, l, hl, rfl⟩ | ⟨b, l, v, hl, rfl⟩
    · cases hw
    · cases hw
    · exact Nat.not_le.mpr hn (of_decide_eq_true hw)
    · exact Nat.not_le.mpr hn (of_decide_eq_true hw)
    · exact Nat.not_lt.mpr ha (of_decide_eq_true hw)
    · exact Nat.not_lt.mpr hr (of_decide_eq_true hw)
    · obtain ⟨h1, h32⟩ : 1 ≤ l.toNat ∧ l.toNat ≤ 32 := of_decide_eq_true hw
      rcases hl with rfl | hl
      · cases h1
      · omega
    · obtain ⟨h1, h8, hv⟩ : 1 ≤ l.toNat ∧ l.toNat ≤ 8 ∧ v.toNat < 2 ^ l.toNat := of_decide_eq_true hw
      rcases hl with rfl | hl | hl
      · cases h1
      · omega
      · omega
  · exact decodeOfEncodeIsTheOperation _ rfl
  · exact decodeOfEncodeIsTheOperation _ rfl
  · exact decodeOfEncodeIsTheOperation _ rfl
  · exact decodeOfEncodeIsTheOperation _ (decide_eq_true ⟨h1, h32⟩)
  · exact decodeOfEncodeIsTheOperation _ (decide_eq_true ⟨h1, h8, hv⟩)

/-- Settles O7. -/
theorem wordsOfTheRulesDecode : Obligations.WordsOfTheRulesDecode :=
  ⟨rfl, rfl, rfl, rfl, rfl, rfl, rfl, rfl, rfl, rfl, rfl⟩

end Sys2Proof.Machine

/-! ## Host access: the observation port (R127), and NEWCYC to WRC (R121 to R126) -/

namespace Sys2Proof.Machine

/-! ### The observation port -/

/-- Settles O12. The value handed over is that of `observe`, which reads a register under a flag through `guarded`, and a
byte of BUF below BUF_SIZE; both choose the content when their condition holds. -/
theorem observationChangesNoBlockState : Obligations.ObservationChangesNoBlockState := by
  refine fun s r rest hs => ⟨observe r s.host.reads (advance rest s), step_observe hs, ?_⟩
  cases r with
  | c | grpEn | tr | bufLen | status | err | errInfo => rfl
  | buf => exact fun hbelow => if_pos hbelow
  | _ => exact fun hflag => if_pos hflag

/-! ### What an operation answers outside lockout (R120, R224) -/

/-- An operation without checks of its own completes outside lockout, with its operands in range (R120, R224). -/
theorem exec_of_inRange {i : Instr} {s : State} (h0 : s.err = 0) (hw : i.wellFormed = true)
    (hc : operationChecks i s = []) : exec i s = .next (operationEffect i s) :=
  exec_completes ⟨fun _ => h0, hw, by simp [hc]⟩

/-- An operand out of its range raises IllegalCommand, whatever the operation's own checks say (R79, R224). -/
theorem exec_outOfRange {i : Instr} {s : State} (h0 : s.err = 0) (hw : i.wellFormed = false) :
    exec i s = .next (faulted 7 (encode i) s) := by
  have hi : i ≠ .newcyc := by rintro rfl; cases hw
  rw [exec_eq_perform hi, perform_illegal h0 hw]
  rfl

/-- With the operands in range, the first of the operation's own checks that fails raises (R224). -/
theorem exec_raises {i : Instr} {s : State} {k : ErrKind} (h0 : s.err = 0) (hw : i.wellFormed = true)
    (hk : firstFailing (operationChecks i s) = some k) : exec i s = .next (raise params k (encode i) s) := by
  have hi : i ≠ .newcyc := by rintro rfl; cases hk
  rw [exec_eq_perform hi, perform_raises h0 hw hk]
  rfl

/-! ### The cycle and the command -/

/-- Settles O16. -/
theorem newcycBeginsACycle : Obligations.NewcycBeginsACycle :=
  ⟨rfl, fun s => ⟨newCycle s, rfl, rfl⟩⟩

/-- Settles O17. -/
theorem clrcmdClearsTheCommand : Obligations.ClrcmdClearsTheCommand :=
  ⟨rfl, fun _ h0 => ⟨_, exec_of_inRange h0 rfl rfl, fun _ => Vector.getElem_replicate _, rfl⟩⟩

/-! ### The transport -/

/-- R190 defines no layout for transports 2 and 3. -/
theorem hasLayout_eq_false {s : State} (h : s.tr = 2 ∨ s.tr = 3) : hasLayout params s = false := by
  rcases h with h | h <;> rw [hasLayout, h] <;> rfl

/-- DECODE and ENCODE check the transport before anything else (R191, R205, R224). -/
theorem exec_unsupported {i : Instr} (hi : i = .decode ∨ i = .encode) {s : State} (h0 : s.err = 0)
    (htr : s.tr = 2 ∨ s.tr = 3) : exec i s = .next (faulted 5 (encode i) s) := by
  have hcheck : firstFailing (operationChecks i s) = some .unsupportedTransport := by
    rcases hi with rfl | rfl <;> simp [operationChecks, firstFailing, hasLayout_eq_false htr]
  have hw : i.wellFormed = true := by rcases hi with rfl | rfl <;> rfl
  exact exec_raises h0 hw hcheck

/-- Settles O18. -/
theorem settrSelectsTheTransport : Obligations.SettrSelectsTheTransport :=
  fun v => ⟨encFK_eq 0x03 v, fun _ h0 => ⟨_, exec_of_inRange h0 rfl rfl, rfl,
    fun hv => ⟨exec_unsupported (.inl rfl) h0 hv, exec_unsupported (.inr rfl) h0 hv⟩⟩⟩

/-! ### The buffer -/

/-- Settles O19. -/
theorem setlenDeclaresTheLength : Obligations.SetlenDeclaresTheLength :=
  fun n => ⟨encFA_eq 0x04 0 n, fun _ h0 =>
    ⟨fun hn => ⟨_, exec_of_inRange h0 (decide_eq_true hn) rfl, lengthOf_toNat hn, rfl⟩,
      fun hn => exec_outOfRange h0 (decide_eq_false (Nat.not_le.mpr hn))⟩⟩

/-- Settles O20. -/
theorem wrbWritesOneByte : Obligations.WrbWritesOneByte :=
  fun a v => ⟨encFA_eq 0x05 a v, fun s h0 =>
    ⟨fun ha => ⟨_, exec_of_inRange h0 (decide_eq_true ha) rfl, bufRead_bufWrite_same s.buf a.toNat v,
        fun _ hx => bufRead_bufWrite_ne s.buf v hx, rfl⟩,
      fun ha => exec_outOfRange h0 (decide_eq_false (Nat.not_lt.mpr ha))⟩⟩

/-! ### The command registers and their groups (R21, R22, R126) -/

/-- The first and the last register of a group (R21). -/
def groupSpan (g : Group) : Nat × Nat :=
  match g with
  | .motor => (0, 1)
  | .audio => (2, 5)
  | .power => (6, 6)
  | .trigR => (7, 17)
  | .trigL => (18, 28)
  | .bright => (29, 29)
  | .player => (30, 30)
  | .lightbar => (31, 33)

/-- A group is a run of registers. -/
theorem groupOf_eq_some_iff {r : Nat} {g : Group} :
    groupOf r = some g ↔ (groupSpan g).1 ≤ r ∧ r ≤ (groupSpan g).2 := by
  unfold groupOf
  cases g <;> grind [groupSpan]

/-- Every bit of GRP_EN stands for a group (R22). -/
theorem exists_groupBit {j : Nat} (hj : j < 8) : ∃ g, groupBit g = j := by
  have hall : ∀ j : Fin 8, ∃ g ∈ allGroups, groupBit g = j := by decide
  obtain ⟨g, -, hg⟩ := hall ⟨j, hj⟩
  exact ⟨g, hg⟩

/-- Settles O21: bit j of GRP_EN is that of a group, and the group's run of registers is the statement's line for j. -/
theorem wrcWritesOneRegisterAndItsGroup : Obligations.WrcWritesOneRegisterAndItsGroup := by
  refine fun r v => ⟨encFA_eq 0x06 r v, fun s h0 => ⟨fun hr => ⟨_, exec_of_inRange h0 (decide_eq_true hr) rfl,
    fun x => ?_, fun j hj => ?_, rfl⟩, fun hr => exec_outOfRange h0 (decide_eq_false (Nat.not_lt.mpr hr))⟩⟩
  · exact (getElem_setRegC s v x.isLt).trans (if_congr eq_comm rfl rfl)
  · obtain ⟨g, rfl⟩ := exists_groupBit hj
    refine (getLsbD_populate s.grpEn r.toNat g).trans (congrArg _ (decide_eq_decide.mpr ?_))
    rw [groupOf_eq_some_iff]
    cases g <;> grind [groupBit, groupSpan]

end Sys2Proof.Machine

/-! ## The checksum engine: CRCSEED to CRCSIGN (R140 to R165) -/

namespace Sys2Proof.Machine

/-! ### The step as a table look-up (R141) -/

/-- Shifts that find only zeros at the low end are plain shifts: the polynomial never enters (R140). -/
theorem crcShifts_of_low_zeros {n : Nat} {c : Word} (h : ∀ i < n, c.getLsbD i = false) :
    crcShifts params n c = c >>> n := by
  induction n generalizing c with
  | zero => simp [crcShifts]
  | succ n ih =>
    have hshift : crcShift params c = c >>> 1 := by rw [crcShift_params, h 0 (by omega)]; simp
    have hlow (i : Nat) (hi : i < n) : (c >>> 1).getLsbD i = false := by
      rw [BitVec.getLsbD_ushiftRight, h (1 + i) (by omega)]
    rw [crcShifts, hshift, ih hlow, ← BitVec.shiftRight_add, Nat.add_comm]

/-- The bits of the low byte's mask. -/
theorem getLsbD_lowByte (x : Word) (i : Nat) : (x &&& 0xFF).getLsbD i = (x.getLsbD i && decide (i < 8)) := by
  rw [BitVec.getLsbD_and, show (0xFF : Word) = (BitVec.allOnes 8).setWidth 32 from rfl, BitVec.getLsbD_setWidth,
    BitVec.getLsbD_allOnes]
  by_cases hi : i < 8
  · simp [hi, show i < 32 by omega]
  · simp [hi]

/-- Stepping over the byte 0 is eight shifts (R140). -/
theorem crcStep_zero (c : Word) : crcStep params c 0 = crcShifts params 8 c := by
  simp [crcStep]

/-- Eight shifts move the upper bits down and look the low byte up: the shifts are linear (R141). -/
theorem crcShifts_split (x : Word) : crcShifts params 8 x = (x >>> 8) ^^^ crcShifts params 8 (x &&& 0xFF) := by
  have hlow (i : Nat) (hi : i < 8) : (x ^^^ (x &&& 0xFF)).getLsbD i = false := by
    rw [BitVec.getLsbD_xor, getLsbD_lowByte, decide_eq_true hi, Bool.and_true, Bool.xor_self]
  have hhigh : (x ^^^ (x &&& 0xFF)) >>> 8 = x >>> 8 := by
    apply BitVec.eq_of_getLsbD_eq
    intro i _
    rw [BitVec.getLsbD_ushiftRight, BitVec.getLsbD_ushiftRight, BitVec.getLsbD_xor, getLsbD_lowByte,
      decide_eq_false (by omega), Bool.and_false, Bool.xor_false]
  calc crcShifts params 8 x
      = crcShifts params 8 ((x ^^^ (x &&& 0xFF)) ^^^ (x &&& 0xFF)) := by
        rw [BitVec.xor_assoc, BitVec.xor_self, BitVec.xor_zero]
    _ = (x >>> 8) ^^^ crcShifts params 8 (x &&& 0xFF) := by
        rw [crcShifts_xor, crcShifts_of_low_zeros hlow, hhigh]

/-- Settles O32: above the low byte the incoming byte has no bits, so that those of c are only shifted. -/
theorem crcStepIsTableDriven : Obligations.CrcStepIsTableDriven := by
  intro c v
  have hv : (v.setWidth 32 : Word) >>> 8 = 0 := by
    apply BitVec.eq_of_getLsbD_eq
    intro i _
    simp [BitVec.getLsbD_ushiftRight]
  rw [crcStep_zero, crcStep, crcShifts_split, BitVec.ushiftRight_xor_distrib, hv, BitVec.ofNat_eq_ofNat,
    BitVec.xor_zero]

/-! ### The seeds (R7, R142, R143) -/

/-- The seed byte of each report kind (R7). -/
theorem seedByte_params (k : BitVec 2) :
    seedByte params k = if k = 0 then 0xA2 else if k = 1 then 0xA1 else 0xA3 := by
  revert k; decide

/-- R143's seed states. -/
theorem seedState_params (k : BitVec 2) :
    seedState params (seedByte params k) =
      if k = 0 then 0x39D9F16D else if k = 1 then 0x2B6C5E83 else 0x81659608 := by
  revert k; decide +kernel

/-- Settles O22. -/
theorem crcseedSeedsTheRunningChecksum : Obligations.CrcseedSeedsTheRunningChecksum := by
  refine fun k => ⟨encFK_eq 0x10 k, fun s h0 => ⟨fun hk => ⟨_, exec_of_inRange h0 (decide_eq_true hk) rfl, ?_⟩,
    fun hk => exec_outOfRange h0 (decide_eq_false (not_not_intro hk))⟩⟩
  rw [operationEffect, seedState_params]

/-! ### Faults (R221, R224) -/

/-- NotReady comes before every other check of an operation's own (R224). -/
theorem exec_notReady {i : Instr} {s : State} {rest : List (Bool × ErrKind)} (h0 : s.err = 0)
    (hw : i.wellFormed = true) (hc : operationChecks i s = (false, .notReady) :: rest) :
    exec i s = .next (faulted 8 (encode i) s) :=
  exec_raises (k := .notReady) h0 hw (by rw [hc]; rfl)

/-- TruncatedBuffer is raised when the checks before it hold (R224). -/
theorem exec_truncated {i : Instr} {s : State} (h0 : s.err = 0) (hw : i.wellFormed = true)
    (hc : firstFailing (operationChecks i s) = some .truncatedBuffer) :
    exec i s = .next (faulted 4 (encode i) s) :=
  exec_raises (k := .truncatedBuffer) h0 hw hc

/-! ### Feeding bytes (R146, R148) -/

/-- Settles O23. -/
theorem crcbyteFeedsOneByte : Obligations.CrcbyteFeedsOneByte :=
  fun v => ⟨encFA_eq 0x11 0 v, fun _ h0 =>
    ⟨fun hseed => exec_completes ⟨fun _ => h0, rfl, by simp [operationChecks, hseed]⟩,
      fun hseed => exec_notReady h0 rfl (by rw [operationChecks, hseed])⟩⟩

/-- CRCFEED completes over a run of bytes inside the report (R148). -/
theorem exec_crcfeed {s : State} {a n : Byte} (h0 : s.err = 0) (hseed : s.crcSeeded = true)
    (hrun : a.toNat + n.toNat ≤ s.bufLen.toNat) :
    exec (.crcfeed a n) s =
      .next { s with crcAcc := crcFeed params s.crcAcc (bufBytes s.buf a.toNat n.toNat) } :=
  exec_completes ⟨fun _ => h0, rfl, by simp [operationChecks, runInBounds, hseed, hrun]⟩

/-- Several operations: the first, then the rest. -/
theorem execAll_cons {i : Instr} {rest : List Instr} {s t : State} (h : exec i s = .next t) :
    execAll (i :: rest) s = execAll rest t := by
  rw [execAll, h]

/-- Settles O24. Two adjacent runs of bytes are one run, and feeding them in turn is feeding it. -/
theorem crcfeedFeedsBufferBytes : Obligations.CrcfeedFeedsBufferBytes := by
  refine fun a n => ⟨encFA_eq 0x12 a n, fun s h0 => ⟨fun hseed hrun => exec_crcfeed h0 hseed hrun,
    fun hseed hrun => exec_truncated h0 rfl ?_, fun hseed => exec_notReady h0 rfl (by rw [operationChecks, hseed]),
    fun m u hseed hu hrun => ?_⟩⟩
  · simp [operationChecks, firstFailing, runInBounds, hseed, hrun]
  · have hsum : (a + n).toNat = a.toNat + n.toNat := by
      rw [BitVec.toNat_add, Nat.mod_eq_of_lt (by omega)]
    refine ⟨_, ?_, exec_crcfeed h0 hseed hrun⟩
    have hrest : (a + n).toNat + m.toNat ≤ s.bufLen.toNat := by omega
    refine Eq.trans (execAll_cons (exec_crcfeed h0 hseed (by omega))) ?_
    refine Eq.trans (execAll_cons (exec_crcfeed h0 hseed hrest)) ?_
    rw [hsum, hu, bufBytes_append, crcFeed_append]
    rfl

/-! ### Finalising and storing (R150, R152) -/

/-- CRCFIN completes once the checksum is seeded (R150). -/
theorem exec_crcfin {s : State} (h0 : s.err = 0) (hseed : s.crcSeeded = true) :
    exec .crcfin s = .next { s with crcRes := s.crcAcc ^^^ params.crcFinalXor, resValid := true } :=
  exec_completes ⟨fun _ => h0, rfl, by simp [operationChecks, hseed]⟩

/-- Settles O25. -/
theorem crcfinFinalises : Obligations.CrcfinFinalises :=
  ⟨rfl, fun _ h0 =>
    ⟨fun hseed => exec_crcfin h0 hseed,
      fun hseed => exec_notReady h0 rfl (by rw [operationChecks, hseed])⟩⟩

/-- The last four of L bytes after a four-byte write there, least significant first (R53). -/
theorem bufRead_memWrite4_trailer (b : Buffer) (v : Word) {L i : Nat} (hi : i < 4) :
    bufRead (memWrite4 b (L - 4) v) (L - 4 + i) = v.extractLsb' (8 * i) 8 := by
  rw [bufRead_memWrite4, if_pos (by omega), Nat.add_sub_cancel_left]

/-- A write of the last four of L bytes changes no other byte. -/
theorem bufRead_memWrite4_outside (b : Buffer) (v : Word) {L x : Nat} (h4 : 4 ≤ L) (hx : x < L - 4 ∨ L ≤ x) :
    bufRead (memWrite4 b (L - 4) v) x = bufRead b x := by
  rw [bufRead_memWrite4, if_neg (by omega)]

/-- CRCPUT completes with a result at hand and room for a trailer (R152). -/
theorem exec_crcput {s : State} (h0 : s.err = 0) (hres : s.resValid = true) (h4 : 4 ≤ s.bufLen.toNat) :
    exec .crcput s =
      .next { s with buf := memWrite4 s.buf (s.bufLen.toNat - 4) s.crcRes, crcFresh := false } :=
  exec_completes ⟨fun _ => h0, rfl, by simp [operationChecks, hasTrailer, hres, h4]⟩

/-- Settles O26. -/
theorem crcputStoresTheResult : Obligations.CrcputStoresTheResult := by
  refine ⟨rfl, fun s h0 => ⟨fun hres h4 => ⟨_, exec_crcput h0 hres h4,
    fun i hi => bufRead_memWrite4_trailer s.buf s.crcRes hi, fun x hx => bufRead_memWrite4_outside s.buf s.crcRes h4 hx,
    rfl⟩, fun hres hshort => exec_truncated h0 rfl ?_,
    fun hres => exec_notReady h0 rfl (by rw [operationChecks, hres])⟩⟩
  simp [operationChecks, firstFailing, hasTrailer, hres, hshort]

/-! ### Signing (R158) -/

/-- CRCSIGN completes with room for a trailer (R158). -/
theorem exec_crcsign {s : State} {k : BitVec 2} (h0 : s.err = 0) (hk : k ≠ 3) (h4 : 4 ≤ s.bufLen.toNat) :
    exec (.crcsign k) s = .next (sign params k s) :=
  exec_completes ⟨fun _ => h0, decide_eq_true hk, by simp [operationChecks, hasTrailer, h4]⟩

/-- R158's running checksum of L bytes: the body, then four zeros for the trailer. -/
theorem signAcc_body (k : BitVec 2) (b : Buffer) {L : Nat} (h4 : 4 ≤ L) :
    signAcc params k b L =
      crcFeed params (seedState params (seedByte params k)) (bufBytes b 0 (L - 4) ++ [0, 0, 0, 0]) := by
  rw [← signAcc_eq, Nat.sub_add_cancel h4]

/-- Settles O27. -/
theorem crcsignSignsTheBuffer : Obligations.CrcsignSignsTheBuffer := by
  refine fun k => ⟨encFK_eq 0x15 k, fun s h0 => ⟨fun hk h4 => ⟨_, exec_crcsign h0 hk h4, ?_, rfl, fun i hi => ?_,
    fun x hx => ?_, rfl⟩, fun hk hshort => exec_truncated h0 (decide_eq_true hk) ?_,
    fun hk => exec_outOfRange h0 (decide_eq_false (not_not_intro hk))⟩⟩
  · rw [sign_crcAcc, signAcc_body k s.buf h4, seedState_params]
  · exact bufRead_memWrite4_trailer _ _ hi
  · rw [bufRead_sign params k s h4, if_neg (by omega)]
  · simp [operationChecks, firstFailing, hasTrailer, hshort]

/-! ### CRCSIGN as a program (R159) -/

/-- WRB completes below BUF_SIZE (R125). -/
theorem exec_wrb {s : State} {a v : Byte} (h0 : s.err = 0) (ha : a.toNat < 78) :
    exec (.wrb a v) s =
      .next { s with buf := bufWrite s.buf a.toNat v, formed := false, crcFresh := false } :=
  exec_of_inRange h0 (decide_eq_true ha) rfl

/-- The state after R159's four WRBs. -/
def withTrailerZeroed (s : State) : State :=
  { s with buf := zeroTrailer s.buf s.bufLen.toNat, formed := false, crcFresh := false }

section Program

variable {s : State} {l : Byte} (h0 : s.err = 0) (hl : l.toNat = s.bufLen.toNat)
include h0 hl

/-- R159's four WRBs zero the trailer of a report that lies inside the buffer. -/
theorem execAll_zero_trailer (h4 : 4 ≤ s.bufLen.toNat) (h78 : s.bufLen.toNat ≤ 78) {rest : List Instr} :
    execAll (.wrb (l - 4) 0 :: .wrb (l - 3) 0 :: .wrb (l - 2) 0 :: .wrb (l - 1) 0 :: rest) s =
      execAll rest (withTrailerZeroed s) := by
  have haddr (d : Byte) (hd : d.toNat ≤ 4) : (l - d).toNat = s.bufLen.toNat - 4 + (4 - d.toNat) := by
    rw [BitVec.toNat_sub_of_le (by rw [BitVec.le_def]; omega)]; omega
  have hrange (d : Byte) (hd : 1 ≤ d.toNat ∧ d.toNat ≤ 4) : (l - d).toNat < 78 := by rw [haddr d hd.2]; omega
  refine Eq.trans (execAll_cons (exec_wrb h0 (hrange 4 (by decide)))) ?_
  refine Eq.trans (execAll_cons (exec_wrb h0 (hrange 3 (by decide)))) ?_
  refine Eq.trans (execAll_cons (exec_wrb h0 (hrange 2 (by decide)))) ?_
  refine Eq.trans (execAll_cons (exec_wrb h0 (hrange 1 (by decide)))) ?_
  rw [haddr 4 (by decide), haddr 3 (by decide), haddr 2 (by decide), haddr 1 (by decide)]
  rfl

/-- R159's CRC operations compute the checksum of the whole report from the seed of k, and store it in the trailer. -/
theorem execAll_checksum {k : BitVec 2} (hk : k ≠ 3) (h4 : 4 ≤ s.bufLen.toNat) {acc : Word}
    (hacc : acc = crcFeed params (seedState params (seedByte params k)) (bufBytes s.buf 0 s.bufLen.toNat)) :
    execAll [.crcseed k, .crcfeed 0 l, .crcfin, .crcput] s =
      .next { s with
        buf := memWrite4 s.buf (s.bufLen.toNat - 4) (acc ^^^ params.crcFinalXor)
        crcAcc := acc, crcRes := acc ^^^ params.crcFinalXor
        crcSeeded := true, resValid := true, crcFresh := false } := by
  have hfeed : (0 : Byte).toNat + l.toNat ≤ s.bufLen.toNat := by simp [hl]
  refine Eq.trans (execAll_cons (exec_of_inRange h0 (decide_eq_true hk) rfl)) ?_
  refine Eq.trans (execAll_cons (exec_crcfeed h0 rfl hfeed)) ?_
  refine Eq.trans (execAll_cons (exec_crcfin h0 rfl)) ?_
  refine Eq.trans (execAll_cons (exec_crcput h0 rfl h4)) ?_
  rw [← hl] at hacc
  rw [hacc]
  rfl

end Program

/-- Settles O28: once the trailer is zeroed, the program feeds the bytes that CRCSIGN covers. -/
theorem crcsignEqualsItsProgram : Obligations.CrcsignEqualsItsProgram := by
  rintro s k l h0 ⟨h78, -⟩ hk h4 hl
  exact ⟨_, _, exec_crcsign h0 hk h4,
    Eq.trans (execAll_zero_trailer h0 hl h4 h78) (execAll_checksum (s := withTrailerZeroed s) h0 hl hk h4 rfl),
    fun _ => rfl, rfl, rfl, rfl, rfl, rfl⟩

/-! ### What the checksum is, and what it depends on (R160, R165) -/

/-- CRC_RES after CRCSIGN: the complement of the running checksum of the body and four zeros (R158). -/
theorem crcRes_of_crcsign {s t : State} {k : BitVec 2} (h0 : s.err = 0) (hk : k ≠ 3) (h4 : 4 ≤ s.bufLen.toNat)
    (h : exec (.crcsign k) s = .next t) :
    t.crcRes = signAcc params k s.buf s.bufLen.toNat ^^^ params.crcFinalXor := by
  rw [exec_crcsign h0 hk h4] at h
  cases h
  rfl

/-- Settles O29: seeding is feeding the seed buffer from the standard initial value (R141). -/
theorem trailerIsTheStandardCrc32 : Obligations.TrailerIsTheStandardCrc32 := by
  intro s t k h0 hk h4 h
  rw [crcRes_of_crcsign h0 hk h4 h, signAcc_body k s.buf h4, stdCrc32, List.append_assoc,
    crcFeed_append params 0xFFFFFFFF, ← seedByte_params]
  rfl

/-- Settles O30. -/
theorem checksumDependsOnKindAndBodyAlone : Obligations.ChecksumDependsOnKindAndBodyAlone := by
  intro s s' t t' k h0 h0' hk h4 hlen hbody h h'
  rw [crcRes_of_crcsign h0 hk h4 h, crcRes_of_crcsign h0' hk (hlen ▸ h4) h', ← hlen,
    signAcc_congr params k h4 hbody]

/-- From one running checksum, different bytes give different ones (R140). -/
theorem crcStep_byte_injective {c : Word} {v w : Byte} (h : crcStep params c v = crcStep params c w) : v = w := by
  have hwide : (v.setWidth 32 : Word) = w.setWidth 32 := (BitVec.xor_right_inj c).mp (crcShifts_injective h)
  simpa using congrArg (BitVec.setWidth 8) hwide

/-- Bytes that agree before and after one place, and leave one running checksum, agree there too (R165): the step over
that place would part the checksums, and no later step joins them. -/
theorem crcFeed_one_byte_injective {c : Word} {before after : List Byte} {v w : Byte}
    (h : crcFeed params c (before ++ v :: after) = crcFeed params c (before ++ w :: after)) : v = w := by
  rw [crcFeed_append, crcFeed_append, crcFeed_cons, crcFeed_cons] at h
  exact crcStep_byte_injective (crcFeed_injective after h)

/-- A run of n bytes around its byte a. -/
theorem bufBytes_split (b : Buffer) {a n : Nat} (h : a < n) :
    bufBytes b 0 n = bufBytes b 0 a ++ bufRead b a :: bufBytes b (a + 1) (n - (a + 1)) := by
  calc bufBytes b 0 n = bufBytes b 0 (a + (1 + (n - (a + 1)))) := by rw [show a + (1 + (n - (a + 1))) = n by omega]
    _ = bufBytes b 0 a ++ (bufBytes b (0 + a) 1 ++ bufBytes b (0 + a + 1) (n - (a + 1))) := by
        rw [bufBytes_append, bufBytes_append]
    _ = bufBytes b 0 a ++ bufRead b a :: bufBytes b (a + 1) (n - (a + 1)) := by rw [Nat.zero_add]; rfl

/-- Settles O31: below the trailer the two runs of bytes agree before and after the changed one. -/
theorem changingOneByteChangesTheChecksum : Obligations.ChangingOneByteChangesTheChecksum := by
  intro s s' t t' k a h0 h0' hk h4 hlen ha hne hbody h h' hres
  have hbefore : bufBytes s.buf 0 a = bufBytes s'.buf 0 a :=
    bufBytes_congr fun x _ hx => hbody x (by omega) (by omega)
  have hafter : bufBytes s.buf (a + 1) (s.bufLen.toNat - 4 - (a + 1)) =
      bufBytes s'.buf (a + 1) (s.bufLen.toNat - 4 - (a + 1)) :=
    bufBytes_congr fun x _ hx => hbody x (by omega) (by omega)
  rw [crcRes_of_crcsign h0 hk h4 h, crcRes_of_crcsign h0' hk (hlen ▸ h4) h', ← hlen, BitVec.xor_left_inj,
    signAcc_body k _ h4, signAcc_body k _ h4, crcFeed_append, crcFeed_append] at hres
  have hfeed := crcFeed_injective _ hres
  rw [bufBytes_split s.buf ha, bufBytes_split s'.buf ha, hbefore, hafter] at hfeed
  exact hne (crcFeed_one_byte_injective hfeed)

end Sys2Proof.Machine

/-! ## Bit fields: EXT, INJ, BSET, ZFILL (R170 to R176) -/

namespace Sys2Proof.Machine

/-! ### Fields inside the report and beyond it (R170) -/

/-- EXT completes on a field inside the report (R171). -/
theorem exec_ext {s : State} {b : BitVec 10} {l : BitVec 6} (h0 : s.err = 0) (hl : 1 ≤ l.toNat ∧ l.toNat ≤ 32)
    (hfield : b.toNat + l.toNat ≤ 8 * s.bufLen.toNat) :
    exec (.ext b l) s = .next { s with xdata := bitRead s.buf b.toNat l.toNat, xValid := true } :=
  exec_completes ⟨fun _ => h0, decide_eq_true hl, by simp [operationChecks, fieldInBounds, hfield]⟩

/-- INJ completes on a field inside the report that its immediate fits (R172). -/
theorem exec_inj {s : State} {b : BitVec 10} {l : BitVec 6} {v : Byte} (h0 : s.err = 0)
    (hl : 1 ≤ l.toNat ∧ l.toNat ≤ 8 ∧ v.toNat < 2 ^ l.toNat) (hfield : b.toNat + l.toNat ≤ 8 * s.bufLen.toNat) :
    exec (.inj b l v) s = .next { s with buf := bitWrite s.buf b.toNat l.toNat v, crcFresh := false } :=
  exec_completes ⟨fun _ => h0, decide_eq_true hl, by simp [operationChecks, fieldInBounds, hfield]⟩

/-- A field that reaches beyond the report fails the one check that EXT and INJ have (R170). -/
theorem fieldCheck_truncated {s : State} {b : BitVec 10} {l : BitVec 6} (h : 8 * s.bufLen.toNat < b.toNat + l.toNat) :
    firstFailing [(fieldInBounds s b l, .truncatedBuffer)] = some .truncatedBuffer := by
  simp [firstFailing, fieldInBounds, h]

/-! ### The four operations -/

/-- Settles O33. -/
theorem extExtractsABitField : Obligations.ExtExtractsABitField := by
  refine fun b l => ⟨(encFB_eq 0x20 b l 0).trans BitVec.or_zero, fun s h0 => ⟨fun h1 h32 hfield =>
    ⟨_, exec_ext h0 ⟨h1, h32⟩ hfield, fun j hj => getLsbD_bitRead s.buf b.toNat l.toNat j hj, rfl⟩,
    fun h1 h32 hbeyond => exec_truncated h0 (decide_eq_true ⟨h1, h32⟩) (fieldCheck_truncated hbeyond),
    fun hl => exec_outOfRange h0 (decide_eq_false ?_)⟩⟩
  omega

/-- Settles O34. -/
theorem injInjectsABitField : Obligations.InjInjectsABitField := by
  refine fun b l v => ⟨encFB_eq 0x21 b l v, fun s h0 => ⟨fun h1 h8 hv hfield =>
    ⟨_, exec_inj h0 ⟨h1, h8, hv⟩ hfield, fun j => bufBit_bitWrite s.buf b.toNat l.toNat v j, rfl⟩,
    fun h1 h8 hv hbeyond => exec_truncated h0 (decide_eq_true ⟨h1, h8, hv⟩) (fieldCheck_truncated hbeyond),
    fun hl => exec_outOfRange h0 (decide_eq_false ?_)⟩⟩
  omega

/-- Settles O35. -/
theorem bsetSetsBitsOfOneByte : Obligations.BsetSetsBitsOfOneByte := by
  refine fun a m => ⟨encFA_eq 0x22 a m, fun s h0 => ⟨fun ha => ⟨_,
    exec_completes ⟨fun _ => h0, rfl, by simp [operationChecks, byteInBounds, ha]⟩,
    bufRead_bufWrite_same s.buf a.toNat _, fun _ hx => bufRead_bufWrite_ne s.buf _ hx, rfl⟩,
    fun ha => exec_truncated h0 rfl ?_⟩⟩
  simp [operationChecks, firstFailing, byteInBounds, ha]

/-- Settles O36. -/
theorem zfillZeroesAndSetsTheLength : Obligations.ZfillZeroesAndSetsTheLength :=
  fun n => ⟨encFA_eq 0x23 0 n, fun s h0 =>
    ⟨fun hn => ⟨_, exec_of_inRange h0 (decide_eq_true hn) rfl, lengthOf_toNat hn, bufRead_bufZero s.buf n.toNat, rfl⟩,
      fun hn => exec_outOfRange h0 (decide_eq_false (Nat.not_le.mpr hn))⟩⟩

/-! ### INJ and then EXT (R176) -/

/-- Reading the field just written gives the value back, if the field holds it. -/
theorem bitRead_bitWrite_same (f : Buffer) (i : Nat) {n : Nat} {v : Byte} (hv : v.toNat < 2 ^ n) :
    bitRead (bitWrite f i n v) i n = v.setWidth 32 := by
  apply BitVec.eq_of_getLsbD_eq
  intro j hj
  rw [getLsbD_bitRead _ _ _ _ hj, bufBit_bitWrite, BitVec.getLsbD_setWidth]
  by_cases hn : j < n
  · simp [hn, hj]
  · have hhigh : v.getLsbD j = false :=
      Nat.testBit_lt_two_pow (hv.trans_le (Nat.pow_le_pow_right (by decide) (Nat.not_lt.mp hn)))
    simp [hn, hhigh]

/-- Writing one field leaves what a disjoint field reads. -/
theorem bitRead_bitWrite_disjoint (f : Buffer) {i n k m : Nat} (v : Byte) (h : k + m ≤ i ∨ i + n ≤ k) :
    bitRead (bitWrite f i n v) k m = bitRead f k m := by
  apply BitVec.eq_of_getLsbD_eq
  intro j hj
  rw [getLsbD_bitRead _ _ _ _ hj, getLsbD_bitRead _ _ _ _ hj, bufBit_bitWrite]
  by_cases hm : j < m
  · rw [if_neg (by omega)]
  · simp [hm]

/-- Settles O37: both EXTs complete after the INJ, which leaves BUF_LEN alone. -/
theorem injectThenExtractGivesTheValue : Obligations.InjectThenExtractGivesTheValue := by
  intro s b l v h0 h1 h8 hv hfield
  have hinj := exec_inj h0 ⟨h1, h8, hv⟩ hfield
  refine ⟨⟨_, (execAll_cons hinj).trans (execAll_cons (exec_ext h0 ⟨h1, by omega⟩ hfield)), h0,
    bitRead_bitWrite_same s.buf b.toNat hv⟩, fun c m hm1 hm32 hin hdisjoint => ?_⟩
  exact ⟨_, _, (execAll_cons hinj).trans (execAll_cons (exec_ext h0 ⟨hm1, hm32⟩ hin)), exec_ext h0 ⟨hm1, hm32⟩ hin,
    bitRead_bitWrite_disjoint s.buf v hdisjoint⟩

/-! ### DECODE by EXT (R175) -/

/-- What a successful DECODE leaves: the input structure at offset 1 of a report of at least 64 bytes (R190, R191). -/
theorem decode_completes {s t : State} (h : exec .decode s = .next t) (ht : t.err = 0) :
    64 ≤ s.bufLen.toNat ∧ t.bufLen = s.bufLen ∧ t.buf = s.buf ∧ t.inp = decodeInput params 1 s.buf := by
  obtain ⟨hc, rfl⟩ := completes_of_err_zero h ht
  obtain ⟨L, hL⟩ := exists_layout_of_hasLayout (hc.checks _ List.mem_cons_self)
  have hlong : longEnough params s = true :=
    hc.checks (longEnough params s, _) (List.mem_cons_of_mem _ List.mem_cons_self)
  simp only [longEnough, hL, decide_eq_true_eq] at hlong
  simp only [operationEffect, hL, Option.elim_some]
  rcases layoutOf_params_cases hL with ⟨-, rfl⟩ | ⟨-, rfl⟩
  · exact ⟨hlong, rfl, rfl, rfl⟩
  · exact ⟨le_trans (by decide) hlong, rfl, rfl, rfl⟩

/-- R175's fields are within the length EXT takes, and within the first 64 bytes. -/
theorem inputFields_bounds (r : InRegs) :
    ∀ f ∈ inputFields r, (1 ≤ f.2.1.toNat ∧ f.2.1.toNat ≤ 32) ∧ f.1.toNat + f.2.1.toNat ≤ 8 * 64 := by
  simp [inputFields, plainFields, touchFields]

/-- A row of R175 whose value the buffer holds at its bit offset. -/
abbrev ReadsAs (b : Buffer) (f : FieldRow) : Prop := bitRead b f.1.toNat f.2.1.toNat = f.2.2

/-- Two bytes put together in 16 bits, the second above the first, are so in 32: nothing is shifted out. -/
theorem setWidth_or_shiftLeft (v w : Byte) {k : Nat} (hk : k ≤ 8) :
    (v.setWidth 16 ||| w.setWidth 16 <<< k).setWidth 32 = v.setWidth 32 ||| w.setWidth 32 <<< k := by
  apply BitVec.eq_of_getLsbD_eq
  intro i hi
  simp only [BitVec.getLsbD_setWidth, BitVec.getLsbD_or, BitVec.getLsbD_shiftLeft]
  by_cases h : i < 16
  · simp [h, hi, show i - k < 16 by omega, show i - k < 32 by omega]
  · simp [h, BitVec.getLsbD_of_ge v i (by omega), BitVec.getLsbD_of_ge w (i - k) (by omega)]

/-- The fields of a touch point whose record is at byte a (R100, R175). -/
theorem touchFields_readAs (f : Buffer) {r : InRegs} {n : Fin 2} {a : Nat} {b : BitVec 10}
    (hr : r.tp[n] = decodeTouch f a) (hb : b.toNat = 8 * a) (ha : a ≤ 100) :
    ∀ row ∈ touchFields r n b, ReadsAs f row := by
  have hoffset (d : BitVec 10) (hd : d.toNat ≤ 20) : (b + d).toNat = 8 * a + d.toNat := by
    rw [BitVec.toNat_add, Nat.mod_eq_of_lt (by omega), hb]
  simp only [touchFields, List.forall_mem_cons, ReadsAs, tpIndex, tpFlag, hr, hb, hoffset 7 (by decide),
    hoffset 8 (by decide), hoffset 20 (by decide)]
  exact ⟨bitRead_byte f a, bitRead_within_byte f a (i := 0) (by decide), bitRead_bit7 f a,
    (bitRead_touch_x f a).trans (setWidth_or_shiftLeft _ _ (by decide)).symm,
    (bitRead_touch_y f a).trans (setWidth_or_shiftLeft _ _ (by decide)).symm, nofun⟩

/-- The other fields (R98, R175). -/
theorem plainFields_readAs (f : Buffer) : ∀ row ∈ plainFields (decodeInput params 1 f), ReadsAs f row := by
  simp only [plainFields, List.forall_mem_cons, ReadsAs]
  exact ⟨bitRead_byte f 1, bitRead_byte f 2, bitRead_byte f 3, bitRead_byte f 4, bitRead_byte f 5, bitRead_byte f 6,
    bitRead_byte f 7, bitRead_memRead4 f 8, bitRead_memRead2 f 16, bitRead_memRead2 f 18, bitRead_memRead2 f 20,
    bitRead_memRead2 f 22, bitRead_memRead2 f 24, bitRead_memRead2 f 26, bitRead_memRead4 f 28, bitRead_byte f 53,
    bitRead_within_byte f 53 (i := 0) (by decide), bitRead_within_byte f 53 (i := 4) (by decide), nofun⟩

/-- Every field of R175, after DECODE's projection of the same buffer. -/
theorem inputFields_readAs (f : Buffer) : ∀ row ∈ inputFields (decodeInput params 1 f), ReadsAs f row := by
  simp only [inputFields, List.forall_mem_append]
  exact ⟨⟨plainFields_readAs f, touchFields_readAs f (a := 33) rfl rfl (by decide)⟩,
    touchFields_readAs f (a := 37) rfl rfl (by decide)⟩

/-- Settles O41: DECODE leaves BUF alone, so that each EXT reads what DECODE projected. -/
theorem decodeAgreesWithExt : Obligations.DecodeAgreesWithExt := by
  intro s t _ h ht f hf
  obtain ⟨h64, hlen, hbuf, hinp⟩ := decode_completes h ht
  obtain ⟨hl, hplace⟩ := inputFields_bounds t.inp f hf
  refine ⟨_, exec_ext ht hl (by rw [hlen]; omega), ht, ?_⟩
  rw [hinp] at hf
  exact hbuf ▸ inputFields_readAs s.buf f hf

end Sys2Proof.Machine

/-! ## The codec: the command's groups, DECODE, BATPCT, and what ENCODE's report reads back (R190 to R212) -/

namespace Sys2Proof.Machine

/-! ### Unpopulated groups (R208) -/

/-- R208 speaks of C and GRP_EN alone. -/
theorem unpopulatedIsZero_congr {s t : State} (h : t.c = s.c ∧ t.grpEn = s.grpEn) (hs : UnpopulatedIsZero s) :
    UnpopulatedIsZero t := by
  simpa only [UnpopulatedIsZero, populated, regC, h] using hs

/-- WRC populates the group of the register it writes, so that no register of an unpopulated group is written (R126). -/
theorem unpopulatedIsZero_wrc {s : State} (r : Nat) (v : Byte) (hs : UnpopulatedIsZero s) :
    UnpopulatedIsZero { s with c := setRegC s r v, grpEn := populate s.grpEn r } := by
  intro x g hg hx hpop
  rw [populated, getLsbD_populate, Bool.or_eq_false_iff, decide_eq_false_iff_not] at hpop
  obtain ⟨hunpop, hr⟩ := hpop
  have hne : r ≠ x.val := fun he => hr (he ▸ hx)
  rw [regC_eq _ x.isLt, getElem_setRegC s v x.isLt, if_neg hne, ← regC_eq]
  exact hs x g hg hx hunpop

/-- CLRCMD zeroes every register, WRC populates as it writes, and no other operation writes C or GRP_EN. -/
theorem operationEffect_unpopulated {i : Instr} {s : State} (hs : UnpopulatedIsZero s) :
    UnpopulatedIsZero (operationEffect i s) := by
  cases i with
  | clrcmd => exact unpopulatedIsZero_of_c_zero fun _ => Vector.getElem_replicate _
  | wrc r v => exact unpopulatedIsZero_wrc r.toNat v hs
  | _ => exact unpopulatedIsZero_congr (operationEffect_command (by nofun) (by nofun) s) hs

/-- Settles O54. -/
theorem stepKeepsUnpopulatedGroupsZero : Obligations.StepKeepsUnpopulatedGroupsZero :=
  fun _ _ hs h => step_keeps (Q := UnpopulatedIsZero) (fun _ _ hs => hs) (fun _ _ _ _ hs => hs)
    (fun _ => unpopulatedIsZero_of_c_zero reset_c) (fun _ _ _ => operationEffect_unpopulated) hs h

/-! ### DECODE (R191) -/

/-- DECODE completes under a layout on a report of its length (R191). -/
theorem exec_decode_of_layout {s : State} {L : Layout} (h0 : s.err = 0) (hL : layoutOf params s.tr = some L)
    (hlen : L.inLen ≤ s.bufLen.toNat) : exec .decode s = .next (decodeEffect params L s) := by
  rw [exec_completes ⟨fun _ => h0, rfl, by simp [operationChecks, hasLayout, longEnough, hL, hlen]⟩]
  simp only [operationEffect, hL, Option.elim_some]

/-- On either transport the input structure starts at offset 1 (R190). -/
theorem exec_decode {s : State} (h0 : s.err = 0)
    (h : (s.tr = 0 ∧ 64 ≤ s.bufLen.toNat) ∨ (s.tr = 1 ∧ 78 ≤ s.bufLen.toNat)) :
    exec .decode s = .next { s with inp := decodeInput params 1 s.buf, inValid := true, pctValid := false } := by
  rcases h with ⟨htr, hlen⟩ | ⟨htr, hlen⟩
  · exact exec_decode_of_layout (L := usbLayout) h0 (by rw [htr]; rfl) hlen
  · exact exec_decode_of_layout (L := btLayout) h0 (by rw [htr]; rfl) hlen

/-- Two disjoint parts of a 16-bit value, the second above the k bits of the first, add up. -/
theorem toNat_or_shiftLeft {v w : Byte} (k : Nat) (hv : v.toNat < 2 ^ k) (hk : k ≤ 8) :
    (v.setWidth 16 ||| w.setWidth 16 <<< k).toNat = v.toNat + 2 ^ k * w.toNat := by
  have hw : w.toNat * 2 ^ k < 2 ^ 16 :=
    calc w.toNat * 2 ^ k ≤ w.toNat * 2 ^ 8 := Nat.mul_le_mul_left _ (Nat.pow_le_pow_right (by decide) hk)
      _ < 2 ^ 16 := by have := w.isLt; omega
  rw [BitVec.toNat_or, BitVec.toNat_shiftLeft, BitVec.toNat_setWidth_of_le (by decide),
    BitVec.toNat_setWidth_of_le (by decide), Nat.shiftLeft_eq, Nat.mod_eq_of_lt hw, Nat.or_comm, ← Nat.shiftLeft_eq,
    ← Nat.shiftLeft_add_eq_or_of_lt hv, Nat.shiftLeft_eq, Nat.add_comm, Nat.mul_comm]

/-- The low nibble's mask is the remainder by 16. -/
theorem toNat_low_nibble (v : Byte) : (v &&& 0x0F).toNat = v.toNat % 16 :=
  Nat.and_two_pow_sub_one_eq_mod v.toNat 4

/-- A touch point's record in natural numbers (R100, R191). -/
theorem decodeTouch_toNat (b : Buffer) (p : Nat) :
    (decodeTouch b p).id = bufRead b p ∧
    (decodeTouch b p).x.toNat = (bufRead b (p + 1)).toNat + 256 * ((bufRead b (p + 2)).toNat % 16) ∧
    (decodeTouch b p).y.toNat = (bufRead b (p + 2)).toNat / 16 + 16 * (bufRead b (p + 3)).toNat := by
  have hhigh : (bufRead b (p + 2) >>> 4).toNat = (bufRead b (p + 2)).toNat / 16 := by
    rw [BitVec.toNat_ushiftRight, Nat.shiftRight_eq_div_pow]
  have hlt := (bufRead b (p + 2)).isLt
  refine ⟨rfl, ?_, ?_⟩
  · rw [decodeTouch, toNat_or_shiftLeft 8 (bufRead b (p + 1)).isLt (by decide), toNat_low_nibble]
    rfl
  · rw [decodeTouch, toNat_or_shiftLeft 4 (by omega) (by decide), hhigh]
    rfl

/-- Settles O40. -/
theorem decodeProjectsTheBuffer : Obligations.DecodeProjectsTheBuffer := by
  refine ⟨rfl, fun s h0 => ⟨fun hlong => ?_, fun hshort => exec_truncated h0 rfl ?_, exec_unsupported (.inl rfl) h0⟩⟩
  · refine ⟨_, exec_decode h0 hlong, rfl, rfl, rfl, rfl, rfl, rfl, rfl, rfl, fun i => ?_, fun i => ?_, rfl, fun n => ?_,
      rfl, rfl⟩
    · match i with
      | 0 | 1 | 2 => rfl
    · match i with
      | 0 | 1 | 2 => rfl
    · match n with
      | 0 => exact decodeTouch_toNat s.buf 33
      | 1 => exact decodeTouch_toNat s.buf 37
  · rcases hshort with ⟨htr, hlen⟩ | ⟨htr, hlen⟩ <;>
      simp [operationChecks, firstFailing, hasLayout, longEnough, layoutOf_params, htr, hlen]

/-! ### BATPCT (R200) -/

/-- At most 15 * 100 / 8 = 187: the percentage fits its byte, so nothing wraps. -/
theorem batteryPercent_toNat (status : Byte) : (batteryPercent status).toNat = status.toNat % 16 * 100 / 8 := by
  rw [batteryPercent, toNat_low_nibble, BitVec.toNat_ofNat, Nat.mod_eq_of_lt (by omega)]

/-- Settles O42. -/
theorem batpctComputesThePercentage : Obligations.BatpctComputesThePercentage :=
  ⟨rfl, fun s h0 =>
    ⟨fun hin => ⟨_, exec_completes ⟨fun _ => h0, rfl, by simp [operationChecks, hin]⟩,
        batteryPercent_toNat s.inp.status, rfl⟩,
      fun hin => exec_notReady h0 rfl (by rw [operationChecks, hin])⟩⟩

/-! ### The report read back by EXT (R210) -/

/-- The fields lie within the 47 bytes of the common command fields (R106). -/
theorem reportRows_offset_lt {row : Nat × Fin 36 × Nat} (h : row ∈ reportRows) : row.1 < 47 := by
  revert row; decide

/-- If ENCODE's report holds the command s at offset B, the EXT of a field's byte gives the field. -/
theorem execAll_encode_ext {s t : State} {B : Nat} {b : BitVec 10} {row : Nat × Fin 36 × Nat}
    (hencode : exec .encode s = .next t) (ht : t.err = 0) (hc : HoldsCommand t.buf B s) (hlen : B + 47 ≤ t.bufLen.toNat)
    (hrow : row ∈ reportRows) (hb : b.toNat = 8 * (B + row.1)) :
    ∃ u, execAll [.encode, .ext b 8] s = .next u ∧ u.err = 0 ∧ u.xdata = (fieldValue s row).setWidth 32 := by
  have hl : (8 : BitVec 6).toNat = 8 := rfl
  have hlt := reportRows_offset_lt hrow
  obtain ⟨hfields, -⟩ := hc
  refine ⟨_, (execAll_cons hencode).trans (execAll_cons (exec_ext ht (by decide) (by omega))), ht, ?_⟩
  rw [hb, hl, bitRead_byte, hfields row hrow]

/-- Settles O45: on either transport ENCODE's report holds the command, at offset 1 or 3. -/
theorem encodedFieldsReadBack : Obligations.EncodedFieldsReadBack := by
  intro s b row hrow h0 hplace
  rcases hplace with ⟨htr, hb⟩ | ⟨htr, hb⟩
  · obtain ⟨t, hencode, -, hcommand, -, -, ht, -⟩ := encodeOnUsbBuildsTheReport.2 s h0 htr
    have hlen : t.bufLen = 63 := by rw [ht]
    exact execAll_encode_ext hencode (by rw [ht, h0]) hcommand (by rw [hlen]; decide) hrow hb
  · obtain ⟨t, hencode, -, -, -, hcommand, -, -, -, -, -, ht, -⟩ := encodeOnBluetoothBuildsTheReport s h0 htr
    have hlen : t.bufLen = 78 := by rw [ht]
    exact execAll_encode_ext hencode (by rw [ht, h0]) hcommand (by rw [hlen]; decide) hrow hb

/-! ### The empty Bluetooth report (R212) -/

/-- Every byte of the common command fields is a field, valid flags, or a gap (R106). -/
theorem commandByte_cases {o : Nat} (h : o < 47) :
    (∃ row ∈ reportRows, row.1 = o) ∨ o ∈ [0, 1, 38] ∨ o ∈ [8, 32, 33, 34, 35, 36, 37, 39, 40, 41] := by
  revert o; decide

/-- With no group populated the common command fields are zero (R208). -/
theorem holdsCommand_zero {b : Buffer} {B : Nat} {s : State} (hg : s.grpEn = 0) (h : HoldsCommand b B s) {o : Nat}
    (ho : o < 47) : bufRead b (B + o) = 0 := by
  obtain ⟨hfields, hflags0, hflags1, hflags2, hgaps⟩ := h
  have hmask (j : Nat) (m : Byte) : maskIf s j m = 0 := by simp [maskIf, hg]
  rcases commandByte_cases ho with ⟨row, hrow, rfl⟩ | hvalid | hgap
  · simp [hfields row hrow, fieldValue, hg]
  · simp only [hmask] at hflags0 hflags1 hflags2
    simp only [List.mem_cons, List.not_mem_nil, or_false] at hvalid
    rcases hvalid with rfl | rfl | rfl
    · exact hflags0
    · exact hflags1
    · exact hflags2
  · exact hgaps o hgap

/-- A run of equal bytes. -/
theorem bufBytes_eq_replicate {b : Buffer} {a n : Nat} {v : Byte} (h : ∀ x, a ≤ x → x < a + n → bufRead b x = v) :
    bufBytes b a n = List.replicate n v := by
  refine List.eq_replicate_iff.mpr ⟨bufBytes_length b a n, fun w hw => ?_⟩
  obtain ⟨i, hi, rfl⟩ := List.mem_map.mp hw
  exact h _ (Nat.le_add_right a i) (Nat.add_lt_add_left (List.mem_range.mp hi) a)

/-- R212's value, fed in three parts. -/
theorem emptyReport_checksum :
    crcFeed params 0x39D9F16D (0x31 :: List.replicate 73 0 ++ [0, 0, 0, 0]) ^^^ 0xFFFFFFFF = 0xC1FB45CB := by
  have hfirst : crcFeed params 0x39D9F16D (0x31 :: List.replicate 25 0) = 0x95FBDE92 := by decide +kernel
  have hsecond : crcFeed params 0x95FBDE92 (List.replicate 26 0) = 0x151F4E40 := by decide +kernel
  have hthird : crcFeed params 0x151F4E40 (List.replicate 26 0) ^^^ 0xFFFFFFFF = 0xC1FB45CB := by decide +kernel
  rw [show (0x31 :: List.replicate 73 0 ++ [0, 0, 0, 0] : List Byte) =
      (0x31 :: List.replicate 25 0) ++ (List.replicate 26 0 ++ List.replicate 26 0) from rfl,
    crcFeed_append, crcFeed_append, hfirst, hsecond, hthird]

/-- Settles O46: past the report id the body is zero, byte by byte, and the trailer is the checksum of that body. -/
theorem emptyBluetoothReportHasItsChecksum : Obligations.EmptyBluetoothReportHasItsChecksum := by
  intro s h0 htr hg h34 h35
  obtain ⟨t, hencode, hid, hseq, htag, hcommand, hpad, hacc, hres, htrailer, -, -, -⟩ :=
    encodeOnBluetoothBuildsTheReport s h0 htr
  have hzero (x : Nat) (h1 : 1 ≤ x) (h74 : x < 1 + 73) : bufRead t.buf x = 0 := by
    obtain rfl | rfl | hx : x = 1 ∨ x = 2 ∨ 3 ≤ x := by omega
    · exact hseq.trans h34
    · exact htag.trans h35
    · by_cases h50 : x < 50
      · obtain ⟨o, rfl⟩ := Nat.exists_eq_add_of_le hx
        exact holdsCommand_zero hg hcommand (by omega)
      · exact hpad x (by omega) h74
  have hbody : bufBytes t.buf 0 74 = 0x31 :: List.replicate 73 0 := by
    rw [bufBytes_split t.buf (a := 0) (by decide), hid, bufBytes_eq_replicate hzero]
    rfl
  have hcrc : t.crcRes = 0xC1FB45CB := by rw [hres, hacc, hbody, emptyReport_checksum]
  have htail : bufBytes t.buf 74 4 = [0xCB, 0x45, 0xFB, 0xC1] :=
    calc bufBytes t.buf 74 4 = (List.range 4).map fun i => t.crcRes.extractLsb' (8 * i) 8 :=
          List.map_congr_left fun i hi => htrailer i (List.mem_range.mp hi)
      _ = [0xCB, 0x45, 0xFB, 0xC1] := by rw [hcrc]; rfl
  exact ⟨t, hencode, hcrc, by rw [bufBytes_append t.buf 0 74 4, hbody, Nat.zero_add, htail]⟩

end Sys2Proof.Machine

/-! ## Faults, lockout and several instances (R220 to R228, R245) -/

namespace Sys2Proof.Machine

/-! ### Lockout (R227) -/

/-- NEWCYC has one command word (R121). -/
theorem ne_newcyc_of_decode {w : Word} {i : Instr} (hd : decode w = .ok i) (hw : w ≠ 0x01000000) : i ≠ .newcyc := by
  rintro rfl
  exact hw (legalWordIsItsOperationsEncoding w .newcyc hd).2.symm

/-- Settles O10. In lockout a legal word, which is not NEWCYC's, is ignored, and an illegal one is not diagnosed. -/
theorem lockoutIgnoresEveryOtherWord : Obligations.LockoutIgnoresEveryOtherWord := by
  intro s w rest hs hlocked hw
  rw [step_command hs]
  cases hd : decode w with
  | ok i => exact (issue_of_ok hd _).trans (exec_locked (ne_newcyc_of_decode hd hw) hlocked)
  | error r => exact issue_of_error_locked hd hlocked

/-! ### The causes of R221 as the operations' checks -/

/-- R190 defines a layout for transports 0 and 1 alone. -/
theorem hasLayout_eq (s : State) : hasLayout params s = !decide (s.tr = 2 ∨ s.tr = 3) := by
  have hrows : ∀ tr, (layoutOf params tr).isSome = !decide (tr = 2 ∨ tr = 3) := by decide
  exact hrows s.tr

/-- Where there is no layout, DECODE's check of the length holds, and R221 has no such cause. -/
theorem longEnough_eq (s : State) : longEnough params s =
    !decide ((s.tr = 0 ∧ s.bufLen.toNat < 64) ∨ (s.tr = 1 ∧ s.bufLen.toNat < 78)) := by
  rw [longEnough, layoutOf_params]
  by_cases husb : s.tr = 0
  · simp [husb, ← decide_not]
  · by_cases hbt : s.tr = 1
    · simp [hbt, ← decide_not]
    · rw [if_neg husb, if_neg hbt]
      simpa using ⟨.inl husb, .inl hbt⟩

/-- A check states the opposite of the cause that it excludes. -/
theorem decide_eq_not_decide {check cause : Prop} [Decidable check] [Decidable cause] (h : ¬ cause ↔ check) :
    decide check = !decide cause := by
  rw [← decide_not, decide_eq_decide, h]

/-- A check fails when its cause holds (R224). -/
theorem firstFailing_cons {holds cause : Bool} (h : holds = !cause) (k : ErrKind) (rest : List (Bool × ErrKind)) :
    firstFailing ((holds, k) :: rest) = if cause then some k else firstFailing rest := by
  cases cause <;> rw [h] <;> rfl

/-- Of two checks the first has precedence (R224). -/
theorem firstFailing_pair {holds cause holds' cause' : Bool} (h : holds = !cause) (h' : holds' = !cause')
    (k k' : ErrKind) :
    firstFailing [(holds, k), (holds', k')] = if cause then some k else if cause' then some k' else none := by
  rw [firstFailing_cons h, firstFailing_cons h']
  rfl

/-- R224: the first of an operation's own checks that fails is the first of R221's causes that holds. -/
theorem firstFailing_operationChecks (i : Instr) (s : State) : firstFailing (operationChecks i s) =
    if notReadyCause i s then some .notReady
    else if unsupportedCause i s then some .unsupportedTransport
    else if truncatedCause i s then some .truncatedBuffer
    else none := by
  cases i with
  | newcyc | clrcmd | settr | setlen | wrb | wrc | crcseed | zfill => rfl
  | crcbyte | crcfin | batpct => exact firstFailing_cons (Bool.not_not _).symm _ _
  | crcfeed | crcput =>
    exact firstFailing_pair (Bool.not_not _).symm (decide_eq_not_decide Nat.not_lt) _ _
  | crcsign | ext | inj => exact firstFailing_cons (decide_eq_not_decide Nat.not_lt) _ _
  | bset => exact firstFailing_cons (decide_eq_not_decide Nat.not_le) _ _
  | decode =>
    refine Eq.trans ?_ (if_neg Bool.false_ne_true).symm
    exact firstFailing_pair (hasLayout_eq s) (longEnough_eq s) _ _
  | encode => exact firstFailing_cons (hasLayout_eq s) _ _

/-- R220: the code in ERR is that of the check that fails. -/
theorem errorAfter_of_wellFormed {i : Instr} (hw : i.wellFormed = true) (s : State) :
    errorAfter i s = (firstFailing (operationChecks i s)).elim 0 params.errCode := by
  rw [firstFailing_operationChecks, errorAfter, if_neg (by simp [hw])]
  split_ifs <;> rfl

/-! ### What a fault leaves (R223, R225, R226) -/

/-- No effect puts an error in ERR (R220). -/
theorem operationEffect_err_zero (i : Instr) {s : State} (h0 : s.err = 0) : (operationEffect i s).err = 0 := by
  by_cases hi : i = .newcyc
  · subst hi; rfl
  · exact (operationEffect_err hi s).1.trans h0

/-- Settles O14: the operand ranges come first, then the operation's own checks, then its effect. -/
theorem errorOfEveryOperation : Obligations.ErrorOfEveryOperation := by
  intro i s h0
  cases hw : i.wellFormed with
  | false => exact ⟨_, exec_outOfRange h0 hw, by rw [errorAfter, if_pos hw]⟩
  | true =>
    rw [errorAfter_of_wellFormed hw]
    cases hk : firstFailing (operationChecks i s) with
    | some k => exact ⟨_, exec_raises h0 hw hk, rfl⟩
    | none =>
      exact ⟨_, exec_completes ⟨fun _ => h0, hw, firstFailing_eq_none.mp hk⟩, operationEffect_err_zero i h0⟩

/-- TXRDY is 0 while an error is pending (R26). -/
theorem txReady_eq_false {s : State} (h : s.err ≠ 0) : txReady s = false :=
  Bool.eq_false_iff.mpr fun hready => h ((txReady_iff s).mp hready).1

/-- Settles O15. An operation that took effect has ERR = 0, so the one in question raised. -/
theorem faultsChangeOnlyErrAndErrInfo : Obligations.FaultsChangeOnlyErrAndErrInfo := by
  intro i s t h0 h ht
  refine ⟨?_, txReady_eq_false ht⟩
  rcases exec_cases h with ⟨-, hlocked, -⟩ | ⟨-, -, k, -, rfl⟩ | ⟨-, rfl⟩
  · exact absurd h0 hlocked
  · rfl
  · exact absurd (operationEffect_err_zero i h0) ht

/-! ### Several instances (R245) -/

/-- A step of instance k is the first of the steps that it takes alone. -/
theorem map_runSteps_stepInstance (k n : Nat) (blocks : List State) :
    (stepInstance k blocks)[k]?.map (runSteps n) = blocks[k]?.map (runSteps (n + 1)) := by
  cases hs : blocks[k]? with
  | none => simp [stepInstance, hs]
  | some s =>
    obtain ⟨t, ht, -⟩ := everyStepConsumesOneEvent s
    simp [stepInstance_self hs ht, runSteps, ht]

/-- Settles O49, by induction on the order of the steps. -/
theorem instancesShareNothing : Obligations.InstancesShareNothing := by
  intro order blocks j
  induction order generalizing blocks with
  | nil => exact Option.map_id_apply.symm
  | cons k order ih =>
    refine (ih (stepInstance k blocks)).trans ?_
    by_cases hk : k = j
    · subst hk
      rw [map_runSteps_stepInstance, List.count_cons_self]
    · rw [stepInstance_other hk, List.count_cons_of_ne hk]

end Sys2Proof.Machine

/-! ## The trailer of a fresh report (R257, R259) -/

namespace Sys2Proof.Machine

/-! ### CRC_FRESH says that the trailer is current (R257) -/

/-- ENCODE clears CRC_FRESH on USB and signs the report on Bluetooth (R205). -/
theorem encodeEffect_fresh {s : State} {L : Layout} (hL : layoutOf params s.tr = some L) :
    FreshIsCurrent (encodeEffect params L s) := by
  rcases layoutOf_params_cases hL with ⟨-, rfl⟩ | ⟨-, rfl⟩
  · nofun
  · have hlen : 4 ≤ (78 : BufLen).toNat := by decide
    exact fun _ => trailerCurrent_sign (k := 0) (s := { s with buf := encodeReport params btLayout s, bufLen := 78 })
      (by decide) hlen

/-- An operation that writes BUF or BUF_LEN clears CRC_FRESH, but for CRCSIGN and ENCODE, which sign (R257). -/
theorem operationEffect_fresh {i : Instr} {s : State} (h : Completes i s) (hs : FreshIsCurrent s) :
    FreshIsCurrent (operationEffect i s) := by
  cases i with
  | newcyc | settr | setlen | wrb | crcput | inj | bset | zfill => nofun
  | clrcmd | wrc | crcseed | crcbyte | crcfeed | crcfin | ext | batpct => exact hs
  | crcsign k =>
    have hk : k ≠ 3 := of_decide_eq_true h.ranges
    have h4 : 4 ≤ s.bufLen.toNat := of_decide_eq_true (h.checks _ List.mem_cons_self)
    exact fun _ => trailerCurrent_sign hk h4
  | decode =>
    simp only [operationEffect]
    cases layoutOf params s.tr <;> exact hs
  | encode =>
    obtain ⟨L, hL⟩ := exists_layout_of_hasLayout (h.checks _ List.mem_cons_self)
    simpa only [operationEffect, hL, Option.elim_some] using encodeEffect_fresh hL

/-- Settles O53: fault entry and the host's side touch neither the report nor CRC_FRESH, and the reset event clears it. -/
theorem stepKeepsFreshTrailersCurrent : Obligations.StepKeepsFreshTrailersCurrent :=
  fun _ _ hs h => step_keeps (Q := FreshIsCurrent) (fun _ _ hs => hs) (fun _ _ _ _ hs => hs) (fun _ => nofun)
    (fun _ _ => operationEffect_fresh) hs h

/-! ### What TXRDY says (R259) -/

/-- Settles O60: FORMED gives the length of the transport's report, and on Bluetooth TXRDY asks for a fresh trailer. -/
theorem readyReportIsWhole : Obligations.ReadyReportIsWhole := by
  intro s hformed hfresh hready
  obtain ⟨herr, hf, htr⟩ := (txReady_iff s).mp hready
  refine ⟨herr, if_pos hready, ?_⟩
  rcases hformed hf with ⟨husb, hlen⟩ | ⟨hbt, hlen⟩
  · exact .inl ⟨husb, hlen⟩
  · rcases htr with h0 | ⟨-, hcrc⟩
    · exact absurd (h0.symm.trans hbt) (by decide)
    · exact .inr ⟨hbt, hlen, hfresh hcrc⟩

end Sys2Proof.Machine
